-- ==== Sys2Proof/Word.lean ====
section
/-! DEFINITION. The words of the block (spec/00_scope.md R9, R10, R12, R13): every stored value is an unsigned
integer of a stated width, so every one is a `BitVec` of that width. -/

namespace Sys2Proof

/-- One of the four words of a command, a time in ms, a tick index (R10, R70). -/
abbrev Word := BitVec 32

/-- A driver register address or the byte written to it (R50). -/
abbrev Byte := BitVec 8

/-- An 8-bit color value (R9: COLOR_W). -/
abbrev Color := BitVec 8

/-- A 12-bit brightness value (R9: BRI_W), or a 12-bit operand of EVAL (R76). -/
abbrev Bright := BitVec 12

/-- A 12-bit ON or OFF count (R176). -/
abbrev Count := BitVec 12

/-- A 7-bit I2C device address (R50). -/
abbrev I2cAddr := BitVec 7

end Sys2Proof
end

