-- ==== Sys2Proof/Syntax.lean ====
section
/-! DEFINITION. The abstract syntax of the block's commands: the names spec/00_scope.md R15 and R18 give strips,
channels, components and curves, the raw command of spec/30_encoding.md R70, the causes of spec/60_exceptions.md
R211, and one constructor of `Instr` per row of spec/opcode_table.json. Operands carry the types of their fields
(R72 to R76), so no term of `Instr` names a channel or a curve that does not exist. -/

namespace Sys2Proof

/-- A strip index (R15, R73): `s0` is the source's strip 1, `s1` its strip 2. -/
inductive StripId where
  | s0
  | s1
  deriving DecidableEq, Repr

/-- A channel of a strip, in index order 0..4 (R15, R74). -/
inductive Chan where
  | red
  | green
  | blue
  | coldWhite
  | warmWhite
  deriving DecidableEq, Repr

/-- A component of a channel: `k` in {c, b} (R15, R17). -/
inductive Comp where
  | color
  | bright
  deriving DecidableEq, Repr

/-- The five curves, in code order 0..4 (R18). -/
inductive Curve where
  | none
  | linear
  | easeIn
  | easeOut
  | easeInOut
  deriving DecidableEq, Repr

/-- A command as the host presents it: four 32-bit words, whole (R51, R70). -/
structure Command where
  w0 : Word
  w1 : Word
  w2 : Word
  w3 : Word
  deriving DecidableEq, Repr

/-- Why a command is illegal (R211); the order is the order of the decoder's checks (R217). -/
inductive Cause where
  | reservedOp
  | reservedBits
  | badChannel
  | badCurve
  deriving DecidableEq, Repr

/-- The nine opcodes of R78. -/
inductive Opcode where
  | nop
  | ldcol
  | ldbri
  | fade
  | setc
  | upd
  | eval
  | duty
  | rst
  deriving DecidableEq, Repr

/-- The nine commands, one constructor per row of spec/opcode_table.json. -/
inductive Instr where
  /-- NOP (R200). -/
  | nop
  /-- LDCOL: load the color target of a channel (R131). -/
  | ldcol (s : StripId) (ch : Chan) (cv : Curve) (color : Color) (ft : Word)
  /-- LDBRI: load the brightness target of a channel (R133). -/
  | ldbri (s : StripId) (ch : Chan) (cv : Curve) (bright : Bright) (ft : Word)
  /-- FADE: one fade pass over a strip (R135). -/
  | fade (s : StripId) (now : Word) (tick : Word)
  /-- SETC: set a strip at once (R146). -/
  | setc (s : StripId) (now : Word) (tick : Word)
  /-- UPD: write a strip to the driver (R182). -/
  | upd (s : StripId)
  /-- EVAL: evaluate a curve between `start` and `stop` (R110). -/
  | eval (cv : Curve) (start : Bright) (stop : Bright) (elapsed : Word) (ft : Word)
  /-- DUTY: evaluate the duty of a (color, brightness) pair (R180). -/
  | duty (color : Color) (bright : Bright)
  /-- RST: reset the block (R201). -/
  | rst
  deriving DecidableEq, Repr

end Sys2Proof
end

