-- ==== Sys2Proof/WellFormed.lean ====
section
/-! DEFINITION. Which 128-bit commands are well formed, written from the rows of spec/opcode_table.json (`match`,
`mask`, `zero_masks`, `field_constraints`) and spec/30_encoding.md R80. It is independent of the decoder, which
follows the masks of R82, so that their agreement is a statement about two tables of the spec. -/

namespace Sys2Proof

/-- One row of spec/opcode_table.json. -/
structure TableRow where
  op : Opcode
  /-- `match`: the fixed bits of W0. -/
  pattern : Word
  /-- `mask`: which bits of W0 are fixed. -/
  mask : Word
  /-- `zero_masks`: the bits of W1, W2, W3 that must be 0. -/
  zero1 : Word
  zero2 : Word
  zero3 : Word
  /-- `field_constraints.CH`: W0[22:20] must be below 5. -/
  hasChan : Bool
  /-- `field_constraints.CV`: W0[18:16] must be below 5. -/
  hasCurve : Bool
  deriving DecidableEq, Repr

/-- The nine rows of spec/opcode_table.json. -/
def opcodeTable : List TableRow := [
  ⟨.nop,   0x00000000#32, 0xFFFFFFFF#32, 0xFFFFFFFF#32, 0xFFFFFFFF#32, 0xFFFFFFFF#32, false, false⟩,
  ⟨.ldcol, 0x10000000#32, 0xFF08FF00#32, 0x00000000#32, 0xFFFFFFFF#32, 0xFFFFFFFF#32, true,  true⟩,
  ⟨.ldbri, 0x20000000#32, 0xFF08F000#32, 0x00000000#32, 0xFFFFFFFF#32, 0xFFFFFFFF#32, true,  true⟩,
  ⟨.fade,  0x30000000#32, 0xFF7FFFFF#32, 0x00000000#32, 0x00000000#32, 0xFFFFFFFF#32, false, false⟩,
  ⟨.setc,  0x40000000#32, 0xFF7FFFFF#32, 0x00000000#32, 0x00000000#32, 0xFFFFFFFF#32, false, false⟩,
  ⟨.upd,   0x50000000#32, 0xFF7FFFFF#32, 0xFFFFFFFF#32, 0xFFFFFFFF#32, 0xFFFFFFFF#32, false, false⟩,
  ⟨.eval,  0x60000000#32, 0xFFF8F000#32, 0xFFFFF000#32, 0x00000000#32, 0x00000000#32, false, true⟩,
  ⟨.duty,  0x70000000#32, 0xFFFFF000#32, 0xFFFFFF00#32, 0xFFFFFFFF#32, 0xFFFFFFFF#32, false, false⟩,
  ⟨.rst,   0xF0000000#32, 0xFFFFFFFF#32, 0xFFFFFFFF#32, 0xFFFFFFFF#32, 0xFFFFFFFF#32, false, false⟩]

/-- The row's fixed bits of W0 stand in the command. -/
def TableRow.fixedBits (r : TableRow) (c : Command) : Bool := c.w0 &&& r.mask == r.pattern

/-- The bits of W1..W3 that the row's command does not use are 0. -/
def TableRow.zeroWords (r : TableRow) (c : Command) : Bool :=
  c.w1 &&& r.zero1 == 0 && c.w2 &&& r.zero2 == 0 && c.w3 &&& r.zero3 == 0

/-- The row's channel field, where it has one, names one of the five channels. -/
def TableRow.chanOk (r : TableRow) (c : Command) : Bool :=
  !r.hasChan || decide ((c.w0.extractLsb' 20 3).toNat < 5)

/-- The row's curve field, where it has one, names one of the five curves. -/
def TableRow.curveOk (r : TableRow) (c : Command) : Bool :=
  !r.hasCurve || decide ((c.w0.extractLsb' 16 3).toNat < 5)

/-- The command is a legal encoding of the row. -/
def TableRow.accepts (r : TableRow) (c : Command) : Bool :=
  r.fixedBits c && r.zeroWords c && r.chanOk c && r.curveOk c

/-- A command is well formed when some row of the opcode table accepts it (R80). -/
def Command.wellFormed (c : Command) : Bool := opcodeTable.any fun r => r.accepts c

end Sys2Proof
end

