-- ==== Sys2Proof/Decode.lean ====
section
/-! DEFINITION. The decoder of spec/30_encoding.md R82, total on every 128-bit command and naming the cause of every
refusal (spec/60_exceptions.md R211, R217), and the encoder of R71, R77 and R83. -/

namespace Sys2Proof

/-- The opcode numbers of R78. -/
def Opcode.code : Opcode → BitVec 4
  | .nop => 0x0
  | .ldcol => 0x1
  | .ldbri => 0x2
  | .fade => 0x3
  | .setc => 0x4
  | .upd => 0x5
  | .eval => 0x6
  | .duty => 0x7
  | .rst => 0xF

/-- The opcode map read backwards; 0x8..0xE name no command (R78, R213). -/
def Opcode.ofCode (b : BitVec 4) : Option Opcode :=
  match b.toNat with
  | 0x0 => some .nop
  | 0x1 => some .ldcol
  | 0x2 => some .ldbri
  | 0x3 => some .fade
  | 0x4 => some .setc
  | 0x5 => some .upd
  | 0x6 => some .eval
  | 0x7 => some .duty
  | 0xF => some .rst
  | _ => none

/-- Strip numbers (R73). -/
def StripId.code : StripId → BitVec 1
  | .s0 => 0
  | .s1 => 1

/-- `s = W0[23]`; both values are legal (R73). -/
def StripId.ofCode (b : BitVec 1) : StripId :=
  match b.toNat with
  | 0 => .s0
  | _ => .s1

/-- Channel numbers (R74). -/
def Chan.code : Chan → BitVec 3
  | .red => 0
  | .green => 1
  | .blue => 2
  | .coldWhite => 3
  | .warmWhite => 4

/-- `ch = W0[22:20]`; 5, 6 and 7 name no channel (R74). -/
def Chan.ofCode (b : BitVec 3) : Option Chan :=
  match b.toNat with
  | 0 => some .red
  | 1 => some .green
  | 2 => some .blue
  | 3 => some .coldWhite
  | 4 => some .warmWhite
  | _ => none

/-- Curve codes (R18). -/
def Curve.code : Curve → BitVec 3
  | .none => 0
  | .linear => 1
  | .easeIn => 2
  | .easeOut => 3
  | .easeInOut => 4

/-- `cv = W0[18:16]`; 5, 6 and 7 name no curve (R75). -/
def Curve.ofCode (b : BitVec 3) : Option Curve :=
  match b.toNat with
  | 0 => some .none
  | 1 => some .linear
  | 2 => some .easeIn
  | 3 => some .easeOut
  | 4 => some .easeInOut
  | _ => Option.none

/-! ### The fields of a command (R71, R77) -/

/-- W0[31:28]. -/
def Command.op (c : Command) : BitVec 4 := c.w0.extractLsb' 28 4

/-- W0[23]. -/
def Command.stripField (c : Command) : BitVec 1 := c.w0.extractLsb' 23 1

/-- W0[22:20]. -/
def Command.chanField (c : Command) : BitVec 3 := c.w0.extractLsb' 20 3

/-- W0[18:16]. -/
def Command.curveField (c : Command) : BitVec 3 := c.w0.extractLsb' 16 3

/-- W0[11:0], the brightness of LDBRI and DUTY and the start value of EVAL (R76). -/
def Command.val (c : Command) : Bright := c.w0.extractLsb' 0 12

/-- W0[7:0], the color of LDCOL (R76). -/
def Command.valColor (c : Command) : Color := c.w0.extractLsb' 0 8

/-- W1[11:0], the end value of EVAL (R77). -/
def Command.endVal (c : Command) : Bright := c.w1.extractLsb' 0 12

/-- W1[7:0], the color of DUTY (R77). -/
def Command.dutyColor (c : Command) : Color := c.w1.extractLsb' 0 8

/-! ### The decoder (R82) -/

/-- The bits of the four words that a format uses: usedmask0 to usedmask3 (R82). -/
def usedMasks : Opcode → Command
  | .nop | .rst    => ⟨0xF0000000#32, 0x00000000#32, 0x00000000#32, 0x00000000#32⟩
  | .ldcol         => ⟨0xF0F700FF#32, 0xFFFFFFFF#32, 0x00000000#32, 0x00000000#32⟩
  | .ldbri         => ⟨0xF0F70FFF#32, 0xFFFFFFFF#32, 0x00000000#32, 0x00000000#32⟩
  | .fade | .setc  => ⟨0xF0800000#32, 0xFFFFFFFF#32, 0xFFFFFFFF#32, 0x00000000#32⟩
  | .upd           => ⟨0xF0800000#32, 0x00000000#32, 0x00000000#32, 0x00000000#32⟩
  | .eval          => ⟨0xF0070FFF#32, 0x00000FFF#32, 0xFFFFFFFF#32, 0xFFFFFFFF#32⟩
  | .duty          => ⟨0xF0000FFF#32, 0x000000FF#32, 0x00000000#32, 0x00000000#32⟩

/-- `z0 != 0 or z1 != 0 or z2 != 0 or z3 != 0` of R82: a bit outside the fields the opcode uses is 1. -/
def reservedBitsSet (op : Opcode) (c : Command) : Bool :=
  let m := usedMasks op
  c.w0 &&& ~~~m.w0 != 0 || c.w1 &&& ~~~m.w1 != 0 || c.w2 &&& ~~~m.w2 != 0 || c.w3 &&& ~~~m.w3 != 0

/-- The channel check and then the curve check of LDCOL and LDBRI (R82, R217). -/
def decodeChanCurve (c : Command) (k : Chan → Curve → Instr) : Except Cause Instr :=
  match Chan.ofCode c.chanField with
  | none => .error .badChannel
  | some ch =>
    match Curve.ofCode c.curveField with
    | none => .error .badCurve
    | some cv => .ok (k ch cv)

/-- The curve check of EVAL (R82). -/
def decodeCurve (c : Command) (k : Curve → Instr) : Except Cause Instr :=
  match Curve.ofCode c.curveField with
  | none => .error .badCurve
  | some cv => .ok (k cv)

/-- The command a legal opcode names, with its fields, after the reserved-bits check (R77, R82). -/
def decodeFields (op : Opcode) (c : Command) : Except Cause Instr :=
  match op with
  | .nop => .ok .nop
  | .ldcol => decodeChanCurve c fun ch cv => .ldcol (StripId.ofCode c.stripField) ch cv c.valColor c.w1
  | .ldbri => decodeChanCurve c fun ch cv => .ldbri (StripId.ofCode c.stripField) ch cv c.val c.w1
  | .fade => .ok (.fade (StripId.ofCode c.stripField) c.w1 c.w2)
  | .setc => .ok (.setc (StripId.ofCode c.stripField) c.w1 c.w2)
  | .upd => .ok (.upd (StripId.ofCode c.stripField))
  | .eval => decodeCurve c fun cv => .eval cv c.val c.endVal c.w2 c.w3
  | .duty => .ok (.duty c.dutyColor c.val)
  | .rst => .ok .rst

/-- `decode` of R82: the checks in the spec's order, the first that fails giving the cause. -/
def decode (c : Command) : Except Cause Instr :=
  match Opcode.ofCode c.op with
  | none => .error .reservedOp
  | some op => if reservedBitsSet op c then .error .reservedBits else decodeFields op c

/-! ### The encoder (R71, R77, R83) -/

/-- The layout of W0 (R71): {OP, 4'b0, S, CH, 1'b0, CV, 4'b0, VAL}. -/
def packW0 (op : Opcode) (s : BitVec 1) (ch cv : BitVec 3) (val : BitVec 12) : Word :=
  op.code ++ 0#4 ++ s ++ ch ++ 0#1 ++ cv ++ 0#4 ++ val

/-- The words of an instruction (R83). -/
def encode : Instr → Command
  | .nop => ⟨packW0 .nop 0 0 0 0, 0, 0, 0⟩
  | .ldcol s ch cv color ft => ⟨packW0 .ldcol s.code ch.code cv.code (color.setWidth 12), ft, 0, 0⟩
  | .ldbri s ch cv bright ft => ⟨packW0 .ldbri s.code ch.code cv.code bright, ft, 0, 0⟩
  | .fade s now tick => ⟨packW0 .fade s.code 0 0 0, now, tick, 0⟩
  | .setc s now tick => ⟨packW0 .setc s.code 0 0 0, now, tick, 0⟩
  | .upd s => ⟨packW0 .upd s.code 0 0 0, 0, 0, 0⟩
  | .eval cv start stop elapsed ft => ⟨packW0 .eval 0 0 cv.code start, stop.setWidth 32, elapsed, ft⟩
  | .duty color bright => ⟨packW0 .duty 0 0 0 bright, color.setWidth 32, 0, 0⟩
  | .rst => ⟨packW0 .rst 0 0 0 0, 0, 0, 0⟩

/-! ### The numbering of spec/opcode_table.json -/

/-- The command whose lowest `nbits` bits are those of `w` and whose other bits are 0: bit 0 is bit 0 of W0, and the
bits of W1, W2 and W3 count on from it. -/
def Command.ofBits (nbits w : Nat) : Command :=
  let v := w % 2 ^ nbits
  ⟨BitVec.ofNat 32 v, BitVec.ofNat 32 (v >>> 32), BitVec.ofNat 32 (v >>> 64), BitVec.ofNat 32 (v >>> 96)⟩

/-- What the decoder reads from the instruction whose bits are `w` in the opcode table's numbering. -/
def decodeTableWord (nbits w : Nat) : Option Instr :=
  match decode (Command.ofBits nbits w) with
  | .ok i => some i
  | .error _ => none

end Sys2Proof
end

