-- ==== Sys2Proof/Config.lean ====
section
/-! DEFINITION. The implementation parameters of spec/00_scope.md R10: what is fixed for one block and no command
changes (R31). The functions of the machine take a `Params`; `Config.block` is the block of the spec, with the
normative default of every decided parameter (R11) and the two OPEN parameters as constants without a body. -/

namespace Sys2Proof

/-- CURVE_ARITH (R10, R114). -/
inductive CurveArith where
  | exact
  | binary64
  deriving DecidableEq, Repr

/-- CURVE_TO_INT (R10, R108). -/
inductive CurveToInt where
  | floor
  | nearest
  deriving DecidableEq, Repr

/-- SHADOW_INIT (R10, R30). -/
inductive ShadowInit where
  | invalid
  | zero
  deriving DecidableEq, Repr

/-- The parameters of R10 that the source leaves open, with the defaults R10 gives. The widths TIME_W, FT_W and
TICK_W are 32 in the types. -/
structure Params where
  curveArith : CurveArith := .exact
  curveToInt : CurveToInt := .floor
  anchorAtTarget : Bool := true
  shadowInit : ShadowInit := .invalid
  /-- PWM_I2C_ADDR: the driver's 7-bit device address. -/
  pwmI2cAddr : I2cAddr
  /-- REG_BASE[s][ch]: the ON_L register of the channel; `REG_BASE + 3 <= 255` (R58) is in the type, since
  253 = 255 - 3 + 1. -/
  regBase : StripId → Chan → Fin 253

/-- PWM_I2C_ADDR, OPEN (R10, R61, D25): no value is known. UNVERIFIED, safe: log entry 3. -/
opaque Config.pwmI2cAddr : I2cAddr

/-- REG_BASE, OPEN (R10, R61, D25): nothing is known but `REG_BASE + 3 <= 255`. UNVERIFIED, safe: log entry 3. -/
opaque Config.regBase : StripId → Chan → Fin 253

/-- Where CURVE_TO_INT = nearest meets a value half way between two integers, whether it goes up (applied to the
lower one): the spec names no tie rule, so this is a free value. DESIGN CHOICE, safe: log entry 5. The normative
block (floor) never asks. -/
opaque Config.nearestTieUp : Int → Bool

/-- The block this spec describes: the normative defaults (R10, R11), and the OPEN parameters. -/
def Config.block : Params where
  pwmI2cAddr := Config.pwmI2cAddr
  regBase := Config.regBase

end Sys2Proof
end

