-- ==== Sys2Proof/Machine/State.lean ====
section
/-! DEFINITION. The state of the block: everything spec/10_state.md gives it, the write history of
spec/20_memory.md R54, the command port of R50, and the state after reset (R38, spec/70_reset_and_hazards.md R240). -/

namespace Sys2Proof.Machine

/-- One value for each of the five channels of a strip (R9, R15). -/
structure PerChan (α : Type) where
  red : α
  green : α
  blue : α
  coldWhite : α
  warmWhite : α
  deriving DecidableEq, Repr

/-- One value for each of the two strips (R9, R15). -/
structure PerStrip (α : Type) where
  s0 : α
  s1 : α
  deriving DecidableEq, Repr

/-- One component of a channel, a color (`w = 8`) or a brightness (`w = 12`): its fade state (R22 to R24) and its
staging registers (R27, R28). -/
structure Fader (w : Nat) where
  /-- CUR: the current value (R22). -/
  cur : BitVec w
  /-- ANC: the anchor (R23). -/
  anc : BitVec w
  /-- TS: the fade-start timestamp in ms (R24). -/
  ts : Word
  /-- TGT: the staged target (R27, R28). -/
  tgt : BitVec w
  /-- FT: the staged fade time in ms (R27, R28). -/
  ft : Word
  /-- CV: the staged curve (R27, R28); a curve code 5..7 cannot be held (R29; log entry 8). -/
  cv : Curve
  deriving DecidableEq, Repr

/-- One channel: its two components, its settled flag and its write shadow. -/
structure Channel where
  color : Fader 8
  bright : Fader 12
  /-- SET: both components equalled their targets after the last FADE or SETC of the strip (R25). -/
  settled : Bool
  /-- SHV: a pair has been written to the driver since reset (R30). -/
  shv : Bool
  /-- SH_c: the color last written (R30). -/
  shC : Color
  /-- SH_b: the brightness last written (R30). -/
  shB : Bright
  deriving DecidableEq, Repr

/-- One strip: its channels and LAST_TICK (R26). -/
structure Strip where
  channels : PerChan Channel
  lastTick : Word
  deriving DecidableEq, Repr

/-- The fields of STATUS (R32); the host reads them as the word `Status.toWord` (log entry 9). -/
structure Status where
  settled0 : Bool
  settled1 : Bool
  err : Bool
  merr : Bool
  cause : BitVec 4
  deriving DecidableEq, Repr

/-- The event `write8(addr7, reg8, byte8)` (R54). -/
structure BusWrite where
  addr : I2cAddr
  reg : Byte
  byte : Byte
  deriving DecidableEq, Repr

/-- The state of the block. -/
structure State where
  /-- The fade state, the staging registers and the shadow of both strips (R22 to R30). -/
  strips : PerStrip Strip
  /-- STATUS (R32). -/
  status : Status
  /-- RESULT (R33). -/
  result : Word
  /-- FAULTW0 (R34). -/
  faultW0 : Word
  /-- The write history, oldest event first (R54). -/
  writes : List BusWrite
  /-- The commands the host presents, next one first (R50, R63). DESIGN CHOICE, safe: log entry 1. -/
  port : List Command
  deriving DecidableEq, Repr

/-- Why the machine stops with a fault: never. The one error of the block, IllegalCommand, is recorded in STATUS and
does not stop it (R212), and no arithmetic condition is an error (R210), so this type has no constructor: nobody
raises a fault, which is safe and unsafe of nothing (log entry 10). -/
inductive Fault where
  deriving DecidableEq, Repr

/-- Why the machine refuses an instruction. -/
inductive Refusal where
  /-- Raised only by an arm of `exec` for an instruction that has no meaning yet; safe. No arm raises it. -/
  | notModelled (mnemonic : String)
  deriving DecidableEq, Repr

/-- A component after reset: every field 0, the curve None (R38). -/
def Fader.reset (w : Nat) : Fader w where
  cur := 0
  anc := 0
  ts := 0
  tgt := 0
  ft := 0
  cv := .none

/-- A channel after reset (R38); SHV follows SHADOW_INIT (R30). -/
def Channel.reset (P : Params) : Channel where
  color := Fader.reset 8
  bright := Fader.reset 12
  settled := false
  shv := P.shadowInit == .zero
  shC := 0
  shB := 0

/-- A strip after reset (R38). -/
def Strip.reset (P : Params) : Strip where
  channels :=
    { red := Channel.reset P, green := Channel.reset P, blue := Channel.reset P,
      coldWhite := Channel.reset P, warmWhite := Channel.reset P }
  lastTick := 0

/-- STATUS after reset: 0x00000000 (R38). -/
def Status.reset : Status where
  settled0 := false
  settled1 := false
  err := false
  merr := false
  cause := 0

/-- The machine after power-on (R38, R240), with no write emitted yet (R54) and no command presented
(DESIGN CHOICE, safe: log entry 1). -/
def State.resetWith (P : Params) : State where
  strips := { s0 := Strip.reset P, s1 := Strip.reset P }
  status := Status.reset
  result := 0
  faultW0 := 0
  writes := []
  port := []

/-- The state of the block of the spec after reset (R38). -/
def State.reset : State := State.resetWith Config.block

end Sys2Proof.Machine
end

