-- ==== Sys2Proof/Machine/Ops.lean ====
section
/-! DEFINITION. The named operations over the state that every meaning is written with: reading and writing one
strip, channel or component, the write primitive of spec/20_memory.md R54, the recording of an illegal command
(spec/60_exceptions.md R212), reset (spec/70_reset_and_hazards.md R240), and the command port (R50, R63). -/

namespace Sys2Proof.Machine

/-! ### Indexing -/

/-- The channel indices in the order `for ch in 0..4` runs them (R14). -/
def allChans : List Chan := [.red, .green, .blue, .coldWhite, .warmWhite]

/-- The value of one channel. -/
def PerChan.get {α : Type} (x : PerChan α) : Chan → α
  | .red => x.red
  | .green => x.green
  | .blue => x.blue
  | .coldWhite => x.coldWhite
  | .warmWhite => x.warmWhite

/-- The values with one channel's replaced. -/
def PerChan.set {α : Type} (x : PerChan α) (ch : Chan) (v : α) : PerChan α :=
  match ch with
  | .red => { x with red := v }
  | .green => { x with green := v }
  | .blue => { x with blue := v }
  | .coldWhite => { x with coldWhite := v }
  | .warmWhite => { x with warmWhite := v }

/-- A function applied to every channel's value. -/
def PerChan.map {α β : Type} (f : α → β) (x : PerChan α) : PerChan β where
  red := f x.red
  green := f x.green
  blue := f x.blue
  coldWhite := f x.coldWhite
  warmWhite := f x.warmWhite

/-- Whether a condition holds of every channel's value. -/
def PerChan.all {α : Type} (f : α → Bool) (x : PerChan α) : Bool :=
  f x.red && f x.green && f x.blue && f x.coldWhite && f x.warmWhite

/-- The value of one strip. -/
def PerStrip.get {α : Type} (x : PerStrip α) : StripId → α
  | .s0 => x.s0
  | .s1 => x.s1

/-- The values with one strip's replaced. -/
def PerStrip.set {α : Type} (x : PerStrip α) (s : StripId) (v : α) : PerStrip α :=
  match s with
  | .s0 => { x with s0 := v }
  | .s1 => { x with s1 := v }

/-- One channel of a strip. -/
def Strip.channel (st : Strip) (ch : Chan) : Channel := st.channels.get ch

/-- A strip with one channel replaced. -/
def Strip.setChannel (st : Strip) (ch : Chan) (x : Channel) : Strip :=
  { st with channels := st.channels.set ch x }

/-- Strip `s` of the state. -/
def State.strip (st : State) (s : StripId) : Strip := st.strips.get s

/-- The state with strip `s` replaced. -/
def State.setStrip (st : State) (s : StripId) (x : Strip) : State :=
  { st with strips := st.strips.set s x }

/-- Channel (s, ch) of the state. -/
def State.channel (st : State) (s : StripId) (ch : Chan) : Channel := (st.strip s).channel ch

/-- The state with channel (s, ch) replaced. -/
def State.setChannel (st : State) (s : StripId) (ch : Chan) (x : Channel) : State :=
  st.setStrip s ((st.strip s).setChannel ch x)

/-! ### Staging registers (R27, R28) -/

/-- TGT, CV and FT of a component replaced, the rest kept (R131, R133). -/
def Fader.load {w : Nat} (x : Fader w) (tgt : BitVec w) (cv : Curve) (ft : Word) : Fader w :=
  { x with tgt := tgt, cv := cv, ft := ft }

/-! ### Status and result outputs (R32 to R34) -/

/-- STATUS.SETTLED<s> <- b (R32, R141). -/
def State.setSettled (st : State) (s : StripId) (b : Bool) : State :=
  match s with
  | .s0 => { st with status := { st.status with settled0 := b } }
  | .s1 => { st with status := { st.status with settled1 := b } }

/-- STATUS.SETTLED<s>. -/
def Status.settled (x : Status) : StripId → Bool
  | .s0 => x.settled0
  | .s1 => x.settled1

/-- RESULT <- v (R33). -/
def State.setResult (st : State) (v : Word) : State := { st with result := v }

/-! ### The write primitive (R54, R56) -/

/-- `I2CWrite(addr7, reg8, byte8)`: one event at the end of the write history (R54). It cannot fail (R228;
log entry 6). -/
def State.i2cWrite (st : State) (addr : I2cAddr) (reg byte : Byte) : State :=
  { st with writes := st.writes ++ [⟨addr, reg, byte⟩] }

/-- A 12-bit count written low byte first to two consecutive registers (R56). -/
def State.writeCount (st : State) (addr : I2cAddr) (reg : Byte) (v : Count) : State :=
  (st.i2cWrite addr reg (v.extractLsb' 0 8)).i2cWrite addr (reg + 1) ((v.extractLsb' 8 4).setWidth 8)

/-! ### IllegalCommand (R210 to R219)

The only exception of the block. It has no entry beyond this recording and no return (R218, R219). -/

/-- The cause codes of R211. -/
def Cause.code : Cause → BitVec 4
  | .reservedOp => 1
  | .reservedBits => 2
  | .badChannel => 3
  | .badCurve => 4

/-- `raise IllegalCommand(cause)` for the command whose first word is `w0` (R212). -/
def raiseIllegal (cause : Cause) (w0 : Word) (st : State) : State :=
  if st.status.err then
    { st with status := { st.status with merr := true } }
  else
    { st with status := { st.status with err := true, cause := Cause.code cause }, faultW0 := w0 }

/-! ### Reset (R240, R241) -/

/-- `ResetState()`: every state element at its reset value; the write history is kept (R55, R241), and so are the
commands the host has yet to present (DEDUCED, safe: log entry 2). -/
def resetState (P : Params) (st : State) : State :=
  { State.resetWith P with writes := st.writes, port := st.port }

/-- Loss of power and power-on: all state is lost (R227) and the write history begins again (R54). An event of the
host, no step of the block (log entry 11). -/
def powerCycle (P : Params) (_st : State) : State := State.resetWith P

/-! ### The command port (R50, R51, R63) -/

/-- The host presents commands, after those it has already presented. -/
def State.present (st : State) (cs : List Command) : State := { st with port := st.port ++ cs }

/-- The next command and the state from which it has been taken; none when the host presents nothing. -/
def State.takeCommand (st : State) : Option (Command × State) :=
  match st.port with
  | [] => none
  | c :: rest => some (c, { st with port := rest })

/-- The state in which `c` is the very next command. -/
def State.presentNext (st : State) (c : Command) : State := { st with port := c :: st.port }

end Sys2Proof.Machine
end

