-- ==== Sys2Proof/Machine/Control.lean ====
section
/-! DEFINITION. The control commands of spec/43_control.md: NOP (R200) and RST (R201). -/

namespace Sys2Proof.Machine

/-- NOP (R200): nothing is read or written. -/
def execNop (st : State) : Host.Outcome State Fault Refusal := .next st

/-- RST (R201): `ResetState()` of R240. -/
def execRst (st : State) : Host.Outcome State Fault Refusal := .next (resetState Config.block st)

end Sys2Proof.Machine
end

