-- ==== Sys2Proof/Machine/Frac.lean ====
section
/-! DEFINITION. Exact fractions, the numbers of the curve unit (spec/00_scope.md R12: the set Q appears only there),
and the rounding of spec/40_curve.md R114. A fraction is not kept in lowest terms: only its value
(`Sys2Proof.Laws`: `Frac.toRat`) means something. -/

namespace Sys2Proof.Machine

/-- A rational number as numerator and positive denominator. -/
structure Frac where
  num : Int
  den : Nat
  den_pos : 0 < den

/-- An integer. -/
def Frac.ofInt (n : Int) : Frac := ⟨n, 1, Nat.one_pos⟩

/-- `x + y`. -/
def Frac.add (x y : Frac) : Frac :=
  ⟨x.num * y.den + y.num * x.den, x.den * y.den, Nat.mul_pos x.den_pos y.den_pos⟩

/-- `x - y`. -/
def Frac.sub (x y : Frac) : Frac :=
  ⟨x.num * y.den - y.num * x.den, x.den * y.den, Nat.mul_pos x.den_pos y.den_pos⟩

/-- `x * y`. -/
def Frac.mul (x y : Frac) : Frac := ⟨x.num * y.num, x.den * y.den, Nat.mul_pos x.den_pos y.den_pos⟩

/-- `x ^ 4`. -/
def Frac.pow4 (x : Frac) : Frac := Frac.mul (Frac.mul x x) (Frac.mul x x)

/-- `x / 2`. -/
def Frac.half (x : Frac) : Frac := ⟨x.num, 2 * x.den, Nat.mul_pos Nat.two_pos x.den_pos⟩

/-- `n / d` for `d > 0`. -/
def Frac.ratio (n d : Nat) (h : 0 < d) : Frac := ⟨n, d, h⟩

/-- `x < y`. -/
def Frac.lt (x y : Frac) : Bool := decide (x.num * y.den < y.num * x.den)

/-- `min x y`, the lesser. -/
def Frac.least (x y : Frac) : Frac := if x.lt y then x else y

/-- `max x y`, the greater. -/
def Frac.greatest (x y : Frac) : Frac := if x.lt y then y else x

/-- `floor x`, the greatest integer not above x (R12). -/
def Frac.floor (x : Frac) : Int := x.num / (x.den : Int)

/-- The nearest integer; for a value half way between two, the tie is a free value (log entry 5). -/
def Frac.nearest (x : Frac) : Int :=
  let f := x.floor
  let r := x.num % (x.den : Int)
  if 2 * r < x.den then f
  else if (x.den : Int) < 2 * r then f + 1
  else if Config.nearestTieUp f then f + 1 else f

/-! ### IEEE 754 binary64 (R114, the alternative CURVE_ARITH) -/

/-- `n / d` to the nearest natural number, a tie to the even one. -/
def roundHalfEven (n d : Nat) : Nat :=
  let q := n / d
  let r := n % d
  if 2 * r < d then q
  else if d < 2 * r then q + 1
  else if q % 2 = 0 then q else q + 1

/-- Whether `n / d >= 2 ^ e`. -/
def atLeastPow2 (n d : Nat) (e : Int) : Bool :=
  if 0 ≤ e then decide (d * 2 ^ e.toNat ≤ n) else decide (d ≤ n * 2 ^ (-e).toNat)

/-- The exponent of the last place of `n / d` in binary64: `floor(log2(n / d)) - 52`, and never below that of the
subnormal numbers. -/
def binary64Ulp (n d : Nat) : Int :=
  let k : Int := (Nat.log2 n : Int) - (Nat.log2 d : Int)
  let e := if atLeastPow2 n d k then k else k - 1
  if e - 52 < -1074 then -1074 else e - 52

/-- The magnitude `n / d` rounded to a binary64 number, round to nearest, ties to even. Overflow is left out: no
value of the curve unit reaches 2 ^ 16. -/
def roundMagnitude (n d : Nat) : Frac :=
  let u := binary64Ulp n d
  if 0 ≤ u then ⟨(roundHalfEven n (d * 2 ^ u.toNat) * 2 ^ u.toNat : Nat), 1, Nat.one_pos⟩
  else
    ⟨(roundHalfEven (n * 2 ^ (-u).toNat) d : Nat), 2 ^ (-u).toNat, Nat.pow_pos Nat.two_pos⟩

/-- A fraction rounded to a binary64 number. -/
def Frac.toBinary64 (x : Frac) : Frac :=
  if x.num = 0 then Frac.ofInt 0
  else
    let m := roundMagnitude x.num.natAbs x.den
    if x.num < 0 then ⟨-m.num, m.den, m.den_pos⟩ else m

/-- What CURVE_ARITH does to the result of one operation: nothing, or one rounding (R107, R114). -/
def roundArith (A : CurveArith) (x : Frac) : Frac :=
  match A with
  | .exact => x
  | .binary64 => x.toBinary64

end Sys2Proof.Machine
end

