-- ==== Sys2Proof/Machine/Operands.lean ====
section
/-! DEFINITION. The operand forms: every operand is an unsigned immediate zero-extended to where it goes
(spec/30_encoding.md R72), and the times of FADE, SETC and EVAL become an elapsed time and a percent
(spec/41_fade.md R140, R145; spec/40_curve.md R111). -/

namespace Sys2Proof.Machine

/-- `zext_32` of a natural number below 2 ^ 32 (R13): what RESULT receives (R33). -/
def zext32 (n : Nat) : Word := BitVec.ofNat 32 n

/-- The elapsed time `(now - TS) mod 2^32` (R140, R145). -/
def elapsedMs (now ts : Word) : Word := now - ts

/-- The percent before the clamp: `1` for a zero fade time, else `e / ft` (R111, R140). -/
def elapsedRatio (A : CurveArith) (e ft : Word) : Frac :=
  if h : 0 < ft.toNat then roundArith A (Frac.ratio e.toNat ft.toNat h) else Frac.ofInt 1

/-- `p = min(1, e / ft)` (R140). -/
def fadePercent (A : CurveArith) (e ft : Word) : Frac := Frac.least (Frac.ofInt 1) (elapsedRatio A e ft)

end Sys2Proof.Machine
end

