-- ==== Sys2Proof/Machine/Curve.lean ====
section
/-! DEFINITION. The curve unit of spec/40_curve.md (R100 to R114) and the EVAL command (R110). -/

namespace Sys2Proof.Machine

/-- The weight of a curve at percent p (R102 to R105), every operation under CURVE_ARITH (R107, R114). None has no
weight (R106); the line for it is never used. -/
def weight (A : CurveArith) (cv : Curve) (p : Frac) : Frac :=
  let rnd := roundArith A
  let one := Frac.ofInt 1
  match cv with
  | .none => one
  | .linear => p
  | .easeIn => rnd (Frac.pow4 p)
  | .easeOut => rnd (Frac.sub one (rnd (Frac.pow4 (rnd (Frac.sub one p)))))
  | .easeInOut =>
    if Frac.lt p (Frac.half one) then rnd (Frac.mul (Frac.ofInt 8) (rnd (Frac.pow4 p)))
    else
      let u := rnd (Frac.add (rnd (Frac.mul (Frac.ofInt (-2)) p)) (Frac.ofInt 2))
      rnd (Frac.sub one (rnd (Frac.half (rnd (Frac.pow4 u)))))

/-- `p <- min(max(p, 0), 1)` (R101). -/
def clampPercent (p : Frac) : Frac := Frac.least (Frac.greatest p (Frac.ofInt 0)) (Frac.ofInt 1)

/-- `ToInt` (R108). -/
def toInt (T : CurveToInt) (q : Frac) : Int :=
  match T with
  | .floor => q.floor
  | .nearest => q.nearest

/-- `q <- a + (b - a) * Weight(cv, p)` (R107). -/
def curveValue (A : CurveArith) (cv : Curve) (p : Frac) (a b : Nat) : Frac :=
  let rnd := roundArith A
  rnd (Frac.add (Frac.ofInt a) (rnd (Frac.mul (Frac.ofInt ((b : Int) - a)) (weight A cv p))))

/-- `Curve(cv, p, a, b)` (R100, R106, R107). The result is never negative (R109). -/
def curve (P : Params) (cv : Curve) (p : Frac) (a b : Nat) : Nat :=
  match cv with
  | .none => b
  | _ => (toInt P.curveToInt (curveValue P.curveArith cv (clampPercent p) a b)).toNat

/-- EVAL's result (R110). -/
def evalCurve (P : Params) (cv : Curve) (start stop : Bright) (e ft : Word) : Word :=
  zext32 (curve P cv (elapsedRatio P.curveArith e ft) start.toNat stop.toNat)

/-- EVAL (R110): RESULT only. -/
def execEval (cv : Curve) (start stop : Bright) (elapsed ft : Word) (st : State) :
    Host.Outcome State Fault Refusal :=
  .next (st.setResult (evalCurve Config.block cv start stop elapsed ft))

end Sys2Proof.Machine
end

