-- ==== Sys2Proof/Machine/Flags.lean ====
section
/-! DEFINITION. The flags of the block: the settled flags (spec/10_state.md R25, spec/41_fade.md R141) and the words
the host reads, STATUS, RESULT and FAULTW0 (R32 to R34). There are no condition codes (R35). -/

namespace Sys2Proof.Machine

/-- A component is at its target (R137, R141). -/
def Fader.atTarget {w : Nat} (x : Fader w) : Bool := x.cur == x.tgt

/-- Both components of the channel are at their targets (R141). -/
def Channel.atTarget (x : Channel) : Bool := x.color.atTarget && x.bright.atTarget

/-- SET <- whether both components are at their targets (R141). -/
def Channel.markSettled (x : Channel) : Channel := { x with settled := x.atTarget }

/-- SET of every channel of the strip (R141). -/
def Strip.markSettled (x : Strip) : Strip := { x with channels := x.channels.map Channel.markSettled }

/-- The AND of the 5 SET flags, the source's "allSettled" (R141). -/
def Strip.allSettled (x : Strip) : Bool := x.channels.all Channel.settled

/-- STATUS as the host reads it (R32): {24'b0, CAUSE, MERR, ERR, SETTLED1, SETTLED0}. -/
def Status.toWord (x : Status) : Word :=
  0#24 ++ x.cause ++ BitVec.ofBool x.merr ++ BitVec.ofBool x.err ++ BitVec.ofBool x.settled1 ++
    BitVec.ofBool x.settled0

/-- The host reads STATUS (R32). -/
def State.readStatus (st : State) : Word := st.status.toWord

/-- The host reads RESULT (R33). -/
def State.readResult (st : State) : Word := st.result

/-- The host reads FAULTW0 (R34). -/
def State.readFaultW0 (st : State) : Word := st.faultW0

end Sys2Proof.Machine
end

