-- ==== Sys2Proof/Machine/Fade.lean ====
section
/-! DEFINITION. The fade engine of spec/41_fade.md: LDCOL (R131), LDBRI (R133), FADE (R135 to R150) and SETC (R146). -/

namespace Sys2Proof.Machine

/-! ### Loading the target -/

/-- LDCOL (R131): the three color staging fields of channel (s, ch). -/
def execLdcol (s : StripId) (ch : Chan) (cv : Curve) (color : Color) (ft : Word) (st : State) :
    Host.Outcome State Fault Refusal :=
  let x := st.channel s ch
  .next (st.setChannel s ch { x with color := x.color.load color cv ft })

/-- LDBRI (R133): the three brightness staging fields of channel (s, ch). -/
def execLdbri (s : StripId) (ch : Chan) (cv : Curve) (bright : Bright) (ft : Word) (st : State) :
    Host.Outcome State Fault Refusal :=
  let x := st.channel s ch
  .next (st.setChannel s ch { x with bright := x.bright.load bright cv ft })

/-! ### One fade pass -/

/-- `tick != (LAST_TICK + 1) mod 2^32` (R136). -/
def isGap (lastTick tick : Word) : Bool := tick != lastTick + 1

/-- A component's timestamp set to now (R136). -/
def Fader.restart {w : Nat} (now : Word) (x : Fader w) : Fader w := { x with ts := now }

/-- Both timestamps of a channel set to now (R136). -/
def Channel.restart (now : Word) (x : Channel) : Channel :=
  { x with color := x.color.restart now, bright := x.bright.restart now }

/-- The gap rule: on a gap all 10 timestamps of the strip are set to now; LAST_TICK becomes tick in any case (R136). -/
def Strip.gapRule (now tick : Word) (x : Strip) : Strip :=
  { channels := if isGap x.lastTick tick then x.channels.map (Channel.restart now) else x.channels
    lastTick := tick }

/-- The value of a component not at its target (R140): the target for a zero fade time, else the curve between
anchor and target at the percent of the elapsed time (R140, R145; log entry 16). `cur` fits `w` bits (R109). -/
def fadeValue {w : Nat} (P : Params) (now ft : Word) (cv : Curve) (x : Fader w) : BitVec w :=
  if ft = 0 then x.tgt
  else
    BitVec.ofNat w
      (curve P cv (fadePercent P.curveArith (elapsedMs now x.ts) ft) x.anc.toNat x.tgt.toNat)

/-- `Step(k, s, ch, now, ft, cv)` of R135, on the component it names: at the target (R137), or moving (R138 to
R140). -/
def Fader.step {w : Nat} (P : Params) (now ft : Word) (cv : Curve) (x : Fader w) : Fader w :=
  if x.cur = x.tgt then
    { x with ts := now, anc := if P.anchorAtTarget then x.tgt else x.anc }
  else
    let v := fadeValue P now ft cv x
    { x with cur := v, anc := if v = x.tgt then x.tgt else x.anc }

/-- Where the fade time and the curve of a pass come from: the staging registers (FADE, R135), or the zero-duration
None template (SETC, R146). -/
inductive FadeTiming where
  | staged
  | instant
  deriving DecidableEq, Repr

/-- One component's step with the fade time and curve the timing gives it. -/
def Fader.stepTimed {w : Nat} (P : Params) (t : FadeTiming) (now : Word) (x : Fader w) : Fader w :=
  match t with
  | .staged => x.step P now x.ft x.cv
  | .instant => x.step P now 0 .none

/-- The step of one component of a channel. -/
def Channel.stepComp (P : Params) (t : FadeTiming) (now : Word) (k : Comp) (x : Channel) : Channel :=
  match k with
  | .color => { x with color := x.color.stepTimed P t now }
  | .bright => { x with bright := x.bright.stepTimed P t now }

/-- The step of one component of a strip. -/
def Strip.stepComp (P : Params) (t : FadeTiming) (now : Word) (x : Strip) (at_ : Chan × Comp) : Strip :=
  x.setChannel at_.1 ((x.channel at_.1).stepComp P t now at_.2)

/-- The order of R135's loops: ch = 0..4, color before brightness. -/
def passOrder : List (Chan × Comp) :=
  [(.red, .color), (.red, .bright), (.green, .color), (.green, .bright), (.blue, .color), (.blue, .bright),
   (.coldWhite, .color), (.coldWhite, .bright), (.warmWhite, .color), (.warmWhite, .bright)]

/-- The steps of a pass, in the order given; the order does not matter (R142). -/
def Strip.steps (P : Params) (t : FadeTiming) (now : Word) (order : List (Chan × Comp)) (x : Strip) : Strip :=
  order.foldl (Strip.stepComp P t now) x

/-- One pass over a strip: the gap rule, every component's step, the SET flags (R135). Each SET flag is read from
its own channel after both its components, so setting all five after the last step is R135's result (DEDUCED, safe:
log entry 7). -/
def Strip.fadePass (P : Params) (t : FadeTiming) (now tick : Word) (x : Strip) : Strip :=
  (Strip.steps P t now passOrder (x.gapRule now tick)).markSettled

/-- The pass on strip `s`, and STATUS.SETTLED<s> <- allSettled (R135, R141). -/
def fadeStrip (P : Params) (t : FadeTiming) (s : StripId) (now tick : Word) (st : State) : State :=
  let x := (st.strip s).fadePass P t now tick
  (st.setStrip s x).setSettled s x.allSettled

/-- FADE (R135). -/
def execFade (s : StripId) (now tick : Word) (st : State) : Host.Outcome State Fault Refusal :=
  .next (fadeStrip Config.block .staged s now tick st)

/-- SETC (R146): FADE with ft = 0 and curve None for every component. -/
def execSetc (s : StripId) (now tick : Word) (st : State) : Host.Outcome State Fault Refusal :=
  .next (fadeStrip Config.block .instant s now tick st)

end Sys2Proof.Machine
end

