-- ==== Sys2Proof/Machine/Pwm.lean ====
section
/-! DEFINITION. The PWM register writer of spec/42_pwm.md: the duty (R170), the ON and OFF counts (R175, R176), DUTY
(R180) and UPD (R182 to R186). -/

namespace Sys2Proof.Machine

/-- `Duty(c, b)` (R170). -/
def duty (c : Color) (b : Bright) : Nat :=
  if c = 0 ∨ b = 0 then 0
  else
    let N := (c.toNat + 1) * 16 * b.toNat
    Nat.min 4095 ((2 * N + 4095) / 8190)

/-- PHASE (R9, R175; 90_conflicts.md C1). -/
def phase : Chan → Count
  | .red => 0
  | .green => 819
  | .blue => 1639
  | .coldWhite => 2459
  | .warmWhite => 3279

/-- The ON count is the phase, whatever the duty (R175). -/
def onCount (ch : Chan) : Count := phase ch

/-- `OFF = (Duty + PHASE) mod 4096` (R176). -/
def offCount (ch : Chan) (d : Nat) : Count := BitVec.ofNat 12 ((d + (phase ch).toNat) % 4096)

/-- DUTY (R180): RESULT only. -/
def execDuty (color : Color) (bright : Bright) (st : State) : Host.Outcome State Fault Refusal :=
  .next (st.setResult (zext32 (duty color bright)))

/-- The channel's pair differs from the pair last written, or none has been written since reset (R183). -/
def Channel.changed (x : Channel) : Bool := !x.shv || x.shC != x.color.cur || x.shB != x.bright.cur

/-- The shadow takes the current pair (R182). -/
def Channel.markWritten (x : Channel) : Channel :=
  { x with shv := true, shC := x.color.cur, shB := x.bright.cur }

/-- REG_BASE[s][ch] as a register address (R53). -/
def regBase (P : Params) (s : StripId) (ch : Chan) : Byte := BitVec.ofNat 8 (P.regBase s ch).val

/-- The four register writes of channel (s, ch): ON_L, ON_H, OFF_L, OFF_H (R53, R182, R184). -/
def writeCounts (P : Params) (s : StripId) (ch : Chan) (on off : Count) (st : State) : State :=
  (st.writeCount P.pwmI2cAddr (regBase P s ch) on).writeCount P.pwmI2cAddr (regBase P s ch + 2) off

/-- The body of UPD's loop for one channel (R182). -/
def updChannel (P : Params) (s : StripId) (st : State) (ch : Chan) : State :=
  let x := st.channel s ch
  if x.changed then
    (writeCounts P s ch (onCount ch) (offCount ch (duty x.color.cur x.bright.cur)) st).setChannel s ch
      x.markWritten
  else st

/-- UPD's loop: ch = 0..4 in that order (R182, R184). -/
def updStrip (P : Params) (s : StripId) (st : State) : State := allChans.foldl (updChannel P s) st

/-- UPD (R182). -/
def execUpd (s : StripId) (st : State) : Host.Outcome State Fault Refusal := .next (updStrip Config.block s st)

end Sys2Proof.Machine
end

