-- ==== Sys2Proof/Machine/Dispatch.lean ====
section
/-! DEFINITION. One arm per command: each a direct call of its meaning. -/

namespace Sys2Proof.Machine

def exec (i : Instr) (s : State) : Host.Outcome State Fault Refusal :=
  match i with
  | .nop => Sys2Proof.Machine.execNop s
  | .ldcol strip ch cv color ft => Sys2Proof.Machine.execLdcol strip ch cv color ft s
  | .ldbri strip ch cv bright ft => Sys2Proof.Machine.execLdbri strip ch cv bright ft s
  | .fade strip now tick => Sys2Proof.Machine.execFade strip now tick s
  | .setc strip now tick => Sys2Proof.Machine.execSetc strip now tick s
  | .upd strip => Sys2Proof.Machine.execUpd strip s
  | .eval cv start stop elapsed ft => Sys2Proof.Machine.execEval cv start stop elapsed ft s
  | .duty color bright => Sys2Proof.Machine.execDuty color bright s
  | .rst => Sys2Proof.Machine.execRst s

end Sys2Proof.Machine
end

