-- ==== Sys2Proof/Machine/Step.lean ====
section
/-! DEFINITION. One step of the block: the next command the host presents, decoded (spec/30_encoding.md R82), then
executed to completion, or recorded as illegal (spec/60_exceptions.md R212). -/

namespace Sys2Proof.Machine

/-- One step (R8, R63). With no command presented the block is idle and holds its state (R227). -/
def step (s : State) : Host.Outcome State Fault Refusal :=
  match s.takeCommand with
  | none => .next s
  | some (c, s') =>
    match decode c with
    | .ok i => exec i s'
    | .error cause => .next (raiseIllegal cause c.w0 s')

/-- `s` with the instruction of `nbits` bits `w` presented next (log entry 1). -/
def State.withFetchWord (s : State) (nbits w : Nat) : State := s.presentNext (Command.ofBits nbits w)

end Sys2Proof.Machine
end

