-- ==== Sys2Proof/Machine/Asm.lean ====
section
/-! DEFINITION. The assembler of spec/30_encoding.md R83 and the pseudo-instructions of R84. An assembler line is
taken after its text has been read: the mnemonic as a constructor and each operand as a number (log entry 12). -/

namespace Sys2Proof.Machine

/-- A line of R83: the mnemonic and its operands, as numbers that may not fit their fields. -/
inductive AsmLine where
  | nop
  | ldcol (s ch curve color ft : Nat)
  | ldbri (s ch curve bright ft : Nat)
  | fade (s now tick : Nat)
  | setc (s now tick : Nat)
  | upd (s : Nat)
  | eval (curve start stop elapsed ft : Nat)
  | duty (color bright : Nat)
  | rst
  deriving DecidableEq, Repr

/-- A number that fits a field of `w` bits; the assembler refuses one that does not (R83). -/
def asmField (w n : Nat) : Option (BitVec w) := if n < 2 ^ w then some (BitVec.ofNat w n) else none

/-- `s is 0 or 1` (R83). -/
def asmStrip (n : Nat) : Option StripId := (asmField 1 n).map StripId.ofCode

/-- `ch is 0..4` (R83). -/
def asmChan (n : Nat) : Option Chan := (asmField 3 n).bind Chan.ofCode

/-- `curve is 0..4` (R83). -/
def asmCurve (n : Nat) : Option Curve := (asmField 3 n).bind Curve.ofCode

/-- The instruction of a line, none where an operand does not fit its field (R83). -/
def AsmLine.toInstr : AsmLine → Option Instr
  | .nop => some .nop
  | .ldcol s ch curve color ft => do
    let s ← asmStrip s
    let ch ← asmChan ch
    let cv ← asmCurve curve
    let color ← asmField 8 color
    let ft ← asmField 32 ft
    return .ldcol s ch cv color ft
  | .ldbri s ch curve bright ft => do
    let s ← asmStrip s
    let ch ← asmChan ch
    let cv ← asmCurve curve
    let bright ← asmField 12 bright
    let ft ← asmField 32 ft
    return .ldbri s ch cv bright ft
  | .fade s now tick => do
    let s ← asmStrip s
    let now ← asmField 32 now
    let tick ← asmField 32 tick
    return .fade s now tick
  | .setc s now tick => do
    let s ← asmStrip s
    let now ← asmField 32 now
    let tick ← asmField 32 tick
    return .setc s now tick
  | .upd s => do
    let s ← asmStrip s
    return .upd s
  | .eval curve start stop elapsed ft => do
    let cv ← asmCurve curve
    let start ← asmField 12 start
    let stop ← asmField 12 stop
    let elapsed ← asmField 32 elapsed
    let ft ← asmField 32 ft
    return .eval cv start stop elapsed ft
  | .duty color bright => do
    let color ← asmField 8 color
    let bright ← asmField 12 bright
    return .duty color bright
  | .rst => some .rst

/-- The words a line assembles to (R83). -/
def AsmLine.assemble (l : AsmLine) : Option Command := l.toInstr.map encode

/-- The pseudo-instructions of R84. -/
inductive Pseudo where
  | ldch (s : StripId) (ch : Chan) (color : Color) (ccurve : Curve) (cft : Word)
      (bright : Bright) (bcurve : Curve) (bft : Word)
  | ldblack (s : StripId) (cv : Curve) (ft : Word)
  | tick (now tick : Word)
  | snap (s : StripId) (now tick : Word)
  deriving DecidableEq, Repr

/-- LDCH: the color load, then the brightness load (R84). -/
def expandLdch (s : StripId) (ch : Chan) (color : Color) (ccurve : Curve) (cft : Word)
    (bright : Bright) (bcurve : Curve) (bft : Word) : List Instr :=
  [.ldcol s ch ccurve color cft, .ldbri s ch bcurve bright bft]

/-- The commands a pseudo-instruction stands for, in order (R84). -/
def Pseudo.expand : Pseudo → List Instr
  | .ldch s ch color ccurve cft bright bcurve bft => expandLdch s ch color ccurve cft bright bcurve bft
  | .ldblack s cv ft => allChans.flatMap fun ch => expandLdch s ch 0 cv ft 0 cv ft
  | .tick now tk => [.fade .s0 now tk, .fade .s1 now tk, .upd .s0, .upd .s1]
  | .snap s now tk => [.setc s now tk, .upd s]

end Sys2Proof.Machine
end

