-- ==== Sys2Proof/Safety.lean ====
section
/-! DEFINITION. The vocabulary of the claims: the curve in the rational numbers, as spec/40_curve.md R101 to R108
writes it; what one fade step may do (spec/41_fade.md R136 to R140); the bytes of a channel write (spec/42_pwm.md
R175, R176, R184); and the invariant of the block. The machine uses none of it. -/

namespace Sys2Proof.Safety

open Sys2Proof.Machine

/-! ### The curve in Q -/

/-- `Weight(cv, p)` (R102 to R105, R107). -/
def weightQ (cv : Curve) (p : ℚ) : ℚ :=
  match cv with
  | .none => 1
  | .linear => p
  | .easeIn => p ^ 4
  | .easeOut => 1 - (1 - p) ^ 4
  | .easeInOut => if p < 1 / 2 then 8 * p ^ 4 else 1 - (2 - 2 * p) ^ 4 / 2

/-- `Curve(cv, p, a, b)` with exact arithmetic and floor (R101, R106, R107, R108). -/
def curveQ (cv : Curve) (p : ℚ) (a b : ℕ) : ℤ :=
  match cv with
  | .none => b
  | _ => ⌊(a : ℚ) + ((b : ℚ) - a) * weightQ cv (min (max p 0) 1)⌋

/-- `e / ft`, and 1 for a zero fade time (R111). -/
def ratioQ (e : ℕ) (ft : ℕ) : ℚ := if ft = 0 then 1 else (e : ℚ) / ft

/-- The elapsed time `(now - TS) mod 2^32` (R140). -/
def elapsedQ (now ts : Word) : ℕ := (now.toNat + 2 ^ 32 - ts.toNat) % 2 ^ 32

/-- `min(1, e / ft)` with `e` the elapsed time, and 1 for a zero fade time (R140). -/
def percentQ (now ts ft : Word) : ℚ := min 1 (ratioQ (elapsedQ now ts) ft.toNat)

/-! ### One fade step -/

/-- What a pass with time `now`, fade time `ft` and curve `cv` makes of a component `x`: the gap rule first (R136),
then the component at its target (R137), or the moving one (R138, R139, R140). The staging registers stay. -/
def FadeRule {w : ℕ} (gap : Prop) [Decidable gap] (now ft : Word) (cv : Curve) (x y : Fader w) : Prop :=
  y.tgt = x.tgt ∧ y.ft = x.ft ∧ y.cv = x.cv ∧
  if x.cur = x.tgt then y.cur = x.cur ∧ y.anc = x.tgt ∧ y.ts = now
  else
    y.ts = (if gap then now else x.ts) ∧
    (y.cur.toNat : ℤ) =
      (if ft = 0 then (x.tgt.toNat : ℤ)
       else curveQ cv (percentQ now (if gap then now else x.ts) ft) x.anc.toNat x.tgt.toNat) ∧
    y.anc = (if y.cur = x.tgt then x.tgt else x.anc)

/-- Everything of a channel that a fade pass does not write: its shadow (R36). -/
def KeepsShadow (x y : Channel) : Prop := y.shv = x.shv ∧ y.shC = x.shC ∧ y.shB = x.shB

/-- Everything of a component that a load does not write: current value, anchor and timestamp (R132). -/
def KeepsFade {w : ℕ} (x y : Fader w) : Prop := y.cur = x.cur ∧ y.anc = x.anc ∧ y.ts = x.ts

/-- Nothing of the error fields changes: ERR, MERR, CAUSE, FAULTW0. -/
def KeepsErrors (st t : State) : Prop :=
  t.status.err = st.status.err ∧ t.status.merr = st.status.merr ∧ t.status.cause = st.status.cause ∧
  t.faultW0 = st.faultW0

/-- Neither the write history nor the commands still presented change. -/
def KeepsPorts (st t : State) : Prop := t.writes = st.writes ∧ t.port = st.port

/-- The fade state of a strip: CUR, ANC, TS and SET of its channels and LAST_TICK are the same (R36). -/
def SameFadeState (x y : Strip) : Prop :=
  y.lastTick = x.lastTick ∧
  ∀ ch, KeepsFade (x.channel ch).color (y.channel ch).color ∧ KeepsFade (x.channel ch).bright (y.channel ch).bright ∧
    (y.channel ch).settled = (x.channel ch).settled

/-- The staging registers of a component are the same (R27, R28). -/
def SameStaging {w : ℕ} (x y : Fader w) : Prop := y.tgt = x.tgt ∧ y.ft = x.ft ∧ y.cv = x.cv

/-- What relates both components of a channel before (`x`) and after (`y`). -/
def ForBoth (R : (w : ℕ) → Fader w → Fader w → Prop) (x y : Channel) : Prop :=
  R 8 x.color y.color ∧ R 12 x.bright y.bright

/-- Everything a pass over strip `s` with operands `now` and `tick` does (R135, R136, R141), with the fade time and
curve of a channel's color from `tc` and of its brightness from `tb`: the components, the SET flags, LAST_TICK and
STATUS.SETTLED<s>; and that it does nothing else (R36, R130). -/
def PassRule (s : StripId) (now tick : Word) (tc tb : Channel → Word × Curve) (st t : State) : Prop :=
  (t.strip s).lastTick = tick ∧
  (∀ ch,
    FadeRule (tick.toNat ≠ ((st.strip s).lastTick.toNat + 1) % 2 ^ 32) now (tc (st.channel s ch)).1
      (tc (st.channel s ch)).2 (st.channel s ch).color (t.channel s ch).color ∧
    FadeRule (tick.toNat ≠ ((st.strip s).lastTick.toNat + 1) % 2 ^ 32) now (tb (st.channel s ch)).1
      (tb (st.channel s ch)).2 (st.channel s ch).bright (t.channel s ch).bright ∧
    ((t.channel s ch).settled = true ↔
      (t.channel s ch).color.cur = (t.channel s ch).color.tgt ∧
      (t.channel s ch).bright.cur = (t.channel s ch).bright.tgt) ∧
    KeepsShadow (st.channel s ch) (t.channel s ch)) ∧
  (t.status.settled s = true ↔ ∀ ch, (t.channel s ch).settled = true) ∧
  (∀ s', s' ≠ s → t.strip s' = st.strip s' ∧ t.status.settled s' = st.status.settled s') ∧
  KeepsErrors st t ∧ t.result = st.result ∧ KeepsPorts st t

/-- A list of instructions executed one after another, none where one gives no next state. -/
def runInstrs : List Instr → State → Option State
  | [], st => some st
  | i :: is, st =>
    match exec i st with
    | .next t => runInstrs is t
    | _ => none

/-! ### The bytes of a channel write -/

/-- PHASE as numbers (R9, R175). -/
def phaseN : Chan → ℕ
  | .red => 0
  | .green => 819
  | .blue => 1639
  | .coldWhite => 2459
  | .warmWhite => 3279

/-- The four events of channel (s, ch) at duty `d`: ON = PHASE, OFF = (d + PHASE) mod 4096, low byte before high,
at REG_BASE + 0..3 (R53, R56, R175, R176, R184). -/
def channelEvents (P : Params) (s : StripId) (ch : Chan) (d : ℕ) : List BusWrite :=
  let r : ℕ := (P.regBase s ch).val
  let on := phaseN ch
  let off := (d + phaseN ch) % 4096
  [⟨P.pwmI2cAddr, BitVec.ofNat 8 r, BitVec.ofNat 8 (on % 256)⟩,
   ⟨P.pwmI2cAddr, BitVec.ofNat 8 (r + 1), BitVec.ofNat 8 (on / 256)⟩,
   ⟨P.pwmI2cAddr, BitVec.ofNat 8 (r + 2), BitVec.ofNat 8 (off % 256)⟩,
   ⟨P.pwmI2cAddr, BitVec.ofNat 8 (r + 3), BitVec.ofNat 8 (off / 256)⟩]

/-- An event the block may emit: to the driver, into some channel's window, an ON byte of that channel's phase or an
OFF byte, and a high byte with bits 7:4 zero (R53, R186). -/
def EventOk (P : Params) (e : BusWrite) : Prop :=
  e.addr = P.pwmI2cAddr ∧
  ∃ s ch, (e.reg.toNat = (P.regBase s ch).val ∧ e.byte.toNat = phaseN ch % 256) ∨
    (e.reg.toNat = (P.regBase s ch).val + 1 ∧ e.byte.toNat = phaseN ch / 256) ∨
    e.reg.toNat = (P.regBase s ch).val + 2 ∨
    (e.reg.toNat = (P.regBase s ch).val + 3 ∧ e.byte.toNat < 16)

/-! ### The invariant -/

/-- Nothing recorded while ERR = 0; a cause of R211's table once ERR = 1 (R32, R34, R211). -/
def ErrorLatch (st : State) : Prop :=
  (st.status.err = false → st.status.merr = false ∧ st.status.cause = 0 ∧ st.faultW0 = 0) ∧
  (st.status.err = true → 1 ≤ st.status.cause.toNat ∧ st.status.cause.toNat ≤ 4)

/-- Bits 31:12 of RESULT read 0 (R33). -/
def ResultFits (st : State) : Prop := st.result.toNat < 4096

/-- STATUS.SETTLED<s> is the AND of the strip's SET flags (R141). -/
def SettledMirrors (st : State) : Prop :=
  ∀ s, st.status.settled s = true ↔ ∀ ch, (st.channel s ch).settled = true

/-- A shadow nothing was written into holds the reset pair (R30). -/
def ShadowFresh (st : State) : Prop :=
  ∀ s ch, (st.channel s ch).shv = false → (st.channel s ch).shC = 0 ∧ (st.channel s ch).shB = 0

/-- Every event emitted so far is one the block may emit (R186). -/
def EventsOk (st : State) : Prop := ∀ e ∈ st.writes, EventOk Config.block e

/-- The invariant of the block. -/
structure Inv (st : State) : Prop where
  errorLatch : ErrorLatch st
  resultFits : ResultFits st
  settledMirrors : SettledMirrors st
  shadowFresh : ShadowFresh st
  eventsOk : EventsOk st

end Sys2Proof.Safety
end

