-- ==== Sys2Proof/Certificates/Slice0/Obligations.lean ====
section
/-! DEFINITION. The statements about the block, each from the rules of spec/ its docstring cites. -/

open Sys2Proof Sys2Proof.Machine Sys2Proof.Safety

/-! ### Decoding and encoding (30_encoding.md, 60_exceptions.md) -/

/-- Decoding the words of an instruction gives it back, at every value of every operand (R71, R77, R82, R83). -/
def Obligations.DecodeOfEncode : Prop := ∀ i : Instr, decode (encode i) = .ok i

/-- Every legal command has one encoding: the words of what it decodes to (R80, R81). -/
def Obligations.EncodeOfDecode : Prop := ∀ (c : Command) (i : Instr), decode c = .ok i → encode i = c

/-- The decoder of R82 accepts exactly the commands a row of spec/opcode_table.json accepts (R80). -/
def Obligations.DecodeAcceptsWellFormed : Prop :=
  ∀ c : Command, (∃ i, decode c = .ok i) ↔ c.wellFormed = true

/-- The first failing check, in the order RESERVED_OP, RESERVED_BITS, BAD_CHANNEL, BAD_CURVE, gives the cause
(R82, R213 to R217). -/
def Obligations.DecodeNamesFirstCause : Prop :=
  ∀ c : Command,
    (8 ≤ c.w0.toNat / 2 ^ 28 ∧ c.w0.toNat / 2 ^ 28 ≤ 14 → decode c = .error .reservedOp) ∧
    ∀ r ∈ opcodeTable, r.pattern.toNat / 2 ^ 28 = c.w0.toNat / 2 ^ 28 →
      if (r.fixedBits c && r.zeroWords c) = false then decode c = .error .reservedBits
      else if r.chanOk c = false then decode c = .error .badChannel
      else if r.curveOk c = false then decode c = .error .badCurve
      else ∃ i, decode c = .ok i

/-- The sample words of R85 decode to their commands and are their encodings. -/
def Obligations.SampleWordsDecode : Prop :=
  ∀ p ∈ ([(⟨0x00000000, 0x00000000, 0x00000000, 0x00000000⟩, .nop),
      (⟨0x100100FF, 0x000003E8, 0x00000000, 0x00000000⟩, .ldcol .s0 .red .linear 255 1000),
      (⟨0x20C40FFF, 0x00001770, 0x00000000, 0x00000000⟩, .ldbri .s1 .warmWhite .easeInOut 4095 6000),
      (⟨0x30800000, 0x00003039, 0x00000007, 0x00000000⟩, .fade .s1 12345 7),
      (⟨0x40000000, 0x00000064, 0x00000001, 0x00000000⟩, .setc .s0 100 1),
      (⟨0x50000000, 0x00000000, 0x00000000, 0x00000000⟩, .upd .s0),
      (⟨0x60020000, 0x00000FFF, 0x00000032, 0x00000064⟩, .eval .easeIn 0 4095 50 100),
      (⟨0x70000FFF, 0x000000FF, 0x00000000, 0x00000000⟩, .duty 255 4095),
      (⟨0xF0000000, 0x00000000, 0x00000000, 0x00000000⟩, .rst)] : List (Command × Instr)),
    decode p.1 = .ok p.2 ∧ encode p.2 = p.1

/-- The words a line assembles to, as sums of its operands at their places, and which operands the assembler refuses
(R71, R77, R83). -/
def Obligations.AssemblerPlacesOperands : Prop :=
  (∀ s ch cv color ft : ℕ,
    if s < 2 ∧ ch < 5 ∧ cv < 5 ∧ color < 256 ∧ ft < 2 ^ 32 then
      (AsmLine.ldcol s ch cv color ft).assemble =
        some ⟨BitVec.ofNat 32 (0x10000000 + s * 2 ^ 23 + ch * 2 ^ 20 + cv * 2 ^ 16 + color), BitVec.ofNat 32 ft, 0, 0⟩
    else (AsmLine.ldcol s ch cv color ft).assemble = none) ∧
  (∀ s ch cv bright ft : ℕ,
    if s < 2 ∧ ch < 5 ∧ cv < 5 ∧ bright < 4096 ∧ ft < 2 ^ 32 then
      (AsmLine.ldbri s ch cv bright ft).assemble =
        some ⟨BitVec.ofNat 32 (0x20000000 + s * 2 ^ 23 + ch * 2 ^ 20 + cv * 2 ^ 16 + bright), BitVec.ofNat 32 ft, 0, 0⟩
    else (AsmLine.ldbri s ch cv bright ft).assemble = none) ∧
  (∀ s now tick : ℕ,
    if s < 2 ∧ now < 2 ^ 32 ∧ tick < 2 ^ 32 then
      (AsmLine.fade s now tick).assemble =
        some ⟨BitVec.ofNat 32 (0x30000000 + s * 2 ^ 23), BitVec.ofNat 32 now, BitVec.ofNat 32 tick, 0⟩ ∧
      (AsmLine.setc s now tick).assemble =
        some ⟨BitVec.ofNat 32 (0x40000000 + s * 2 ^ 23), BitVec.ofNat 32 now, BitVec.ofNat 32 tick, 0⟩
    else (AsmLine.fade s now tick).assemble = none ∧ (AsmLine.setc s now tick).assemble = none) ∧
  (∀ s : ℕ,
    if s < 2 then (AsmLine.upd s).assemble = some ⟨BitVec.ofNat 32 (0x50000000 + s * 2 ^ 23), 0, 0, 0⟩
    else (AsmLine.upd s).assemble = none) ∧
  (∀ cv start stop elapsed ft : ℕ,
    if cv < 5 ∧ start < 4096 ∧ stop < 4096 ∧ elapsed < 2 ^ 32 ∧ ft < 2 ^ 32 then
      (AsmLine.eval cv start stop elapsed ft).assemble =
        some ⟨BitVec.ofNat 32 (0x60000000 + cv * 2 ^ 16 + start), BitVec.ofNat 32 stop, BitVec.ofNat 32 elapsed,
          BitVec.ofNat 32 ft⟩
    else (AsmLine.eval cv start stop elapsed ft).assemble = none) ∧
  (∀ color bright : ℕ,
    if color < 256 ∧ bright < 4096 then
      (AsmLine.duty color bright).assemble =
        some ⟨BitVec.ofNat 32 (0x70000000 + bright), BitVec.ofNat 32 color, 0, 0⟩
    else (AsmLine.duty color bright).assemble = none) ∧
  AsmLine.nop.assemble = some ⟨0, 0, 0, 0⟩ ∧ AsmLine.rst.assemble = some ⟨0xF0000000, 0, 0, 0⟩

/-- LDBLACK runs as ten loads that stage black on every channel of the strip, with its curve and fade time for both
components, and changes nothing else (R84, R131, R133). -/
def Obligations.LdblackStagesBlack : Prop :=
  ∀ (s : StripId) (cv : Curve) (ft : Word) (st : State),
    (Pseudo.expand (.ldblack s cv ft)).length = 10 ∧
    ∃ t, runInstrs (Pseudo.expand (.ldblack s cv ft)) st = some t ∧
      (∀ ch, ForBoth (fun _ x y => y.tgt = 0 ∧ y.cv = cv ∧ y.ft = ft ∧ KeepsFade x y) (st.channel s ch)
          (t.channel s ch) ∧
        (t.channel s ch).settled = (st.channel s ch).settled ∧ KeepsShadow (st.channel s ch) (t.channel s ch)) ∧
      (t.strip s).lastTick = (st.strip s).lastTick ∧ (∀ s', s' ≠ s → t.strip s' = st.strip s') ∧
      t.status = st.status ∧ t.result = st.result ∧ t.faultW0 = st.faultW0 ∧ KeepsPorts st t

/-! ### The step (20_memory.md, 60_exceptions.md) -/

/-- A step runs the next presented command: where it decodes, the step is `exec` of the instruction on the state from
which the command has been taken (R8, R63, R82; the port is the model's, log entry 1). -/
def Obligations.StepRunsDecodedCommand : Prop :=
  ∀ (s : State) (c : Command) (rest : List Command) (i : Instr),
    s.port = c :: rest → decode c = .ok i → step s = exec i { s with port := rest }

/-- The instruction the opcode table's numbering gives is the one the very next step runs (log entry 1). -/
def Obligations.FetchWordRuns : Prop :=
  ∀ (s : State) (nbits w : ℕ) (i : Instr),
    decodeTableWord nbits w = some i → step (s.withFetchWord nbits w) = exec i s

/-- An illegal command records ERR, its cause code and its word W0 if none is recorded, else MERR; it has no other
effect and the block takes the next command (R212). -/
def Obligations.StepRecordsIllegalCommand : Prop :=
  ∀ (s : State) (c : Command) (rest : List Command) (k : Cause),
    s.port = c :: rest → decode c = .error k →
    ∃ t, step s = .next t ∧
      (s.status.err = false → t.status.err = true ∧ t.status.merr = s.status.merr ∧
        t.status.cause.toNat = (match k with
          | .reservedOp => 1
          | .reservedBits => 2
          | .badChannel => 3
          | .badCurve => 4) ∧ t.faultW0 = c.w0) ∧
      (s.status.err = true → t.status.err = true ∧ t.status.merr = true ∧ t.status.cause = s.status.cause ∧
        t.faultW0 = s.faultW0) ∧
      t.strips = s.strips ∧ t.status.settled0 = s.status.settled0 ∧ t.status.settled1 = s.status.settled1 ∧
      t.result = s.result ∧ t.writes = s.writes ∧ t.port = rest

/-- With no command presented the block is idle and holds its state (R227). -/
def Obligations.IdleStepHoldsState : Prop := ∀ s : State, s.port = [] → step s = .next s

/-- Every step answers a next state: no command and no state stops the block (R80, R210, R212, R243). -/
def Obligations.StepAlwaysAnswersNext : Prop := ∀ s : State, ∃ t, step s = .next t

/-! ### Reset, NOP, RST (10_state.md, 43_control.md, 70_reset_and_hazards.md) -/

/-- The reset values of R38, for either SHADOW_INIT; the block of the spec has SHADOW_INIT = invalid. -/
def Obligations.ResetValues : Prop :=
  (∀ P : Params,
    (∀ s ch, (State.resetWith P).channel s ch =
      { color := ⟨0, 0, 0, 0, 0, .none⟩, bright := ⟨0, 0, 0, 0, 0, .none⟩, settled := false,
        shv := decide (P.shadowInit = .zero), shC := 0, shB := 0 }) ∧
    (∀ s, ((State.resetWith P).strip s).lastTick = 0) ∧
    (State.resetWith P).readStatus = 0 ∧ (State.resetWith P).readResult = 0 ∧ (State.resetWith P).readFaultW0 = 0) ∧
  (∀ s ch, (State.reset.channel s ch).shv = false) ∧ State.reset = State.resetWith Config.block

/-- After reset nothing has been written and nothing is presented, and the block stays as it is until the host presents
a command. The empty history is R54's and the idling R227's; that the port is empty at reset is the model's choice
(log entry 1). -/
def Obligations.ResetIsIdle : Prop :=
  State.reset.writes = [] ∧ State.reset.port = [] ∧ step State.reset = .next State.reset

/-- NOP leaves everything as it was; its one legal encoding is all 128 bits 0, and opcode 0 with any other bit set is
RESERVED_BITS (R200). -/
def Obligations.NopDoesNothing : Prop :=
  (∀ st : State, exec .nop st = .next st) ∧
  (∀ c : Command, decode c = .ok .nop ↔ c = ⟨0, 0, 0, 0⟩) ∧
  (∀ c : Command, c.w0.toNat / 2 ^ 28 = 0 → c ≠ ⟨0, 0, 0, 0⟩ → decode c = .error .reservedBits)

/-- RST gives every element its reset value and keeps the write history; opcode 0xF with any other bit set does not
reset (R38, R201, R240, R241). That the commands still presented are kept is the model's (log entry 2). -/
def Obligations.RstResetsTheBlock : Prop :=
  (∀ st : State, ∃ t, exec .rst st = .next t ∧
    (∀ s, (t.strip s).lastTick = 0) ∧
    (∀ s ch, t.channel s ch =
      { color := ⟨0, 0, 0, 0, 0, .none⟩, bright := ⟨0, 0, 0, 0, 0, .none⟩, settled := false,
        shv := false, shC := 0, shB := 0 }) ∧
    t.readStatus = 0 ∧ t.status = ⟨false, false, false, false, 0⟩ ∧ t.readResult = 0 ∧ t.readFaultW0 = 0 ∧
    KeepsPorts st t) ∧
  (∀ c : Command, decode c = .ok .rst ↔ c = ⟨0xF0000000, 0, 0, 0⟩) ∧
  (∀ c : Command, c.w0.toNat / 2 ^ 28 = 15 → c ≠ ⟨0xF0000000, 0, 0, 0⟩ → decode c = .error .reservedBits)

/-! ### Loading the target (41_fade.md R131 to R133) -/

/-- LDCOL writes the three color staging fields of its channel and nothing else (R131, R132). -/
def Obligations.LdcolLoadsColorTarget : Prop :=
  ∀ (s : StripId) (ch : Chan) (cv : Curve) (color : Color) (ft : Word) (st : State),
    ∃ t, exec (.ldcol s ch cv color ft) st = .next t ∧
      (t.channel s ch).color.tgt = color ∧ (t.channel s ch).color.cv = cv ∧ (t.channel s ch).color.ft = ft ∧
      KeepsFade (st.channel s ch).color (t.channel s ch).color ∧
      (t.channel s ch).bright = (st.channel s ch).bright ∧ (t.channel s ch).settled = (st.channel s ch).settled ∧
      KeepsShadow (st.channel s ch) (t.channel s ch) ∧
      (∀ s' ch', ¬ (s' = s ∧ ch' = ch) → t.channel s' ch' = st.channel s' ch') ∧
      (∀ s', (t.strip s').lastTick = (st.strip s').lastTick) ∧
      t.status = st.status ∧ t.result = st.result ∧ t.faultW0 = st.faultW0 ∧ KeepsPorts st t

/-- LDBRI writes the three brightness staging fields of its channel and nothing else (R132, R133). -/
def Obligations.LdbriLoadsBrightnessTarget : Prop :=
  ∀ (s : StripId) (ch : Chan) (cv : Curve) (bright : Bright) (ft : Word) (st : State),
    ∃ t, exec (.ldbri s ch cv bright ft) st = .next t ∧
      (t.channel s ch).bright.tgt = bright ∧ (t.channel s ch).bright.cv = cv ∧ (t.channel s ch).bright.ft = ft ∧
      KeepsFade (st.channel s ch).bright (t.channel s ch).bright ∧
      (t.channel s ch).color = (st.channel s ch).color ∧ (t.channel s ch).settled = (st.channel s ch).settled ∧
      KeepsShadow (st.channel s ch) (t.channel s ch) ∧
      (∀ s' ch', ¬ (s' = s ∧ ch' = ch) → t.channel s' ch' = st.channel s' ch') ∧
      (∀ s', (t.strip s').lastTick = (st.strip s').lastTick) ∧
      t.status = st.status ∧ t.result = st.result ∧ t.faultW0 = st.faultW0 ∧ KeepsPorts st t

/-! ### The curve unit (40_curve.md) -/

/-- The block's curve is the formula of R107 evaluated in Q and floored (R101 to R108). -/
def Obligations.CurveEqualsRationalFormula : Prop :=
  ∀ (cv : Curve) (p : Frac) (a b : ℕ),
    (curve Config.block cv p a b : ℤ) = curveQ cv ((p.num : ℚ) / p.den) a b

/-- EVAL writes the curve's value at p = e / ft (1 for ft = 0) to RESULT, zero-extended, and nothing else
(R33, R110, R111). -/
def Obligations.EvalWritesCurveResult : Prop :=
  ∀ (cv : Curve) (a b : Bright) (e ft : Word) (st : State),
    ∃ t, exec (.eval cv a b e ft) st = .next t ∧
      (t.result.toNat : ℤ) = curveQ cv (ratioQ e.toNat ft.toNat) a.toNat b.toNat ∧ t.result.toNat < 4096 ∧
      t.strips = st.strips ∧ t.status = st.status ∧ t.faultW0 = st.faultW0 ∧ KeepsPorts st t

/-- Every weight lies in [0, 1], every value before conversion and every result between the end points, so that the
result fits the width the end points fit (R109). -/
def Obligations.CurveStaysBetweenEndpoints : Prop :=
  (∀ (cv : Curve) (p : ℚ), 0 ≤ p → p ≤ 1 → 0 ≤ weightQ cv p ∧ weightQ cv p ≤ 1 ∧
    ∀ a b : ℕ, (min a b : ℚ) ≤ a + ((b : ℚ) - a) * weightQ cv p ∧ a + ((b : ℚ) - a) * weightQ cv p ≤ (max a b : ℚ)) ∧
  (∀ (cv : Curve) (p : Frac) (a b : ℕ),
    min a b ≤ curve Config.block cv p a b ∧ curve Config.block cv p a b ≤ max a b ∧
    ∀ w, a < 2 ^ w → b < 2 ^ w → curve Config.block cv p a b < 2 ^ w)

/-- At p = 1 every curve gives b, at p = 0 the curves 1..4 give a and None gives b, and between equal end points
every curve gives them (R112 a to c). -/
def Obligations.CurveEndpoints : Prop :=
  ∀ (cv : Curve) (p : Frac) (a b : ℕ),
    ((p.num : ℚ) / p.den = 1 → curve Config.block cv p a b = b) ∧
    ((p.num : ℚ) / p.den = 0 → curve Config.block cv p a b = if cv = .none then b else a) ∧
    curve Config.block cv p a a = a

/-- The result is monotone in the percent, rising or falling with the end points (R112 d). -/
def Obligations.CurveMonotone : Prop :=
  ∀ (cv : Curve) (p q : Frac) (a b : ℕ), (p.num : ℚ) / p.den ≤ (q.num : ℚ) / q.den →
    (a ≤ b → curve Config.block cv p a b ≤ curve Config.block cv q a b) ∧
    (b ≤ a → curve Config.block cv q a b ≤ curve Config.block cv p a b)

/-- A rising fade reaches b only at p = 1; a falling one as soon as (a - b)(1 - w) < 1 (R113). -/
def Obligations.FloorAsymmetry : Prop :=
  (∀ (cv : Curve) (p : Frac) (a b : ℕ), cv ≠ .none → a < b → 0 ≤ (p.num : ℚ) / p.den → (p.num : ℚ) / p.den ≤ 1 →
    (curve Config.block cv p a b = b ↔ (p.num : ℚ) / p.den = 1)) ∧
  (∀ (cv : Curve) (p : Frac) (a b : ℕ), cv ≠ .none → b < a → 0 ≤ (p.num : ℚ) / p.den → (p.num : ℚ) / p.den ≤ 1 →
    (curve Config.block cv p a b = b ↔ ((a : ℚ) - b) * (1 - weightQ cv ((p.num : ℚ) / p.den)) < 1)) ∧
  curve Config.block .easeOut (Frac.ratio 3 4 (by decide)) 255 0 = 0 ∧
  curve Config.block .easeOut (Frac.ratio 3 4 (by decide)) 0 255 = 254

/-- The binary64 alternative, as the model reads it, differs by one unit from the exact result at 29/100 of 100. The
value 28 rests on the model's reading of binary64 (log entry 4), not on a rule; R114 says only that such a difference
can occur. -/
def Obligations.Binary64DiffersByOneUnit : Prop :=
  curve Config.block .linear (elapsedRatio .exact 29 100) 0 100 = 29 ∧
  curve { Config.block with curveArith := .binary64 } .linear (elapsedRatio .binary64 29 100) 0 100 = 28

/-- Floor is the greatest integer not above the value, and the nearest alternative is within one half of it, however
ties fall (R10, R12, R108; the tie is a free value, log entry 5). -/
def Obligations.ToIntRounds : Prop :=
  ∀ q : Frac, toInt .floor q = ⌊(q.num : ℚ) / q.den⌋ ∧ |(toInt .nearest q : ℚ) - (q.num : ℚ) / q.den| ≤ 1 / 2

/-! ### The fade engine (41_fade.md R135 to R150) -/

/-- FADE: the gap rule, every component's step with its staged fade time and curve, SET, LAST_TICK and
STATUS.SETTLED<s>, and nothing else (R130, R135 to R141). Where a fade time exceeds the wrapped elapsed time of a clock
that ran backward, R145 says p = 1 in words and the value here is the one of R140's formula: the model's choice, log
entry 16. -/
def Obligations.FadeRunsOnePass : Prop :=
  ∀ (s : StripId) (now tick : Word) (st : State), ∃ t, exec (.fade s now tick) st = .next t ∧
    PassRule s now tick (fun x => (x.color.ft, x.color.cv)) (fun x => (x.bright.ft, x.bright.cv)) st t

/-- SETC: the same pass with ft = 0 and curve None for every component; every current value then equals its target
and STATUS.SETTLED<s> is 1 (R146). -/
def Obligations.SetcSetsTheStripAtOnce : Prop :=
  ∀ (s : StripId) (now tick : Word) (st : State), ∃ t, exec (.setc s now tick) st = .next t ∧
    PassRule s now tick (fun _ => (0, .none)) (fun _ => (0, .none)) st t ∧
    (∀ ch, ForBoth (fun _ x y => y.cur = x.tgt) (st.channel s ch) (t.channel s ch)) ∧ t.status.settled s = true

/-- A component at its target keeps its value and has its timestamp set to now; its anchor becomes the target exactly
when ANCHOR_AT_TARGET (R137). -/
def Obligations.AtTargetSlidesTimestamp : Prop :=
  ∀ (w : ℕ) (P : Params) (now ft : Word) (cv : Curve) (x : Fader w), x.cur = x.tgt →
    x.step P now ft cv =
      { cur := x.cur, anc := if P.anchorAtTarget then x.tgt else x.anc, ts := now, tgt := x.tgt, ft := x.ft, cv := x.cv }

/-- STATUS.SETTLED<s> after FADE or SETC is 1 exactly when all ten components of the strip equal their targets, and
each SET flag says so of its channel (R141). -/
def Obligations.SettledIffAllAtTarget : Prop :=
  ∀ (s : StripId) (now tick : Word) (st : State), ∀ i ∈ [Instr.fade s now tick, Instr.setc s now tick],
    ∃ t, exec i st = .next t ∧
      (∀ ch, (t.channel s ch).settled = true ↔
        (t.channel s ch).color.cur = (t.channel s ch).color.tgt ∧
        (t.channel s ch).bright.cur = (t.channel s ch).bright.tgt) ∧
      (t.status.settled s = true ↔ ∀ ch, (t.channel s ch).color.cur = (t.channel s ch).color.tgt ∧
        (t.channel s ch).bright.cur = (t.channel s ch).bright.tgt)

/-- The order in which a pass steps the channels and components does not change its result (R142). -/
def Obligations.StepOrderIrrelevant : Prop :=
  ∀ (P : Params) (tm : FadeTiming) (now : Word) (order : List (Chan × Comp)) (x : Strip),
    order.Perm passOrder → Strip.steps P tm now order x = Strip.steps P tm now passOrder x

/-- The first FADE after a gap returns every component not at its target to its anchor, or to the target for None or
ft = 0; the fade starts again from that value at now, with its fade time and target unchanged (R148). -/
def Obligations.GapReturnsToAnchor : Prop :=
  ∀ (s : StripId) (now tick : Word) (st : State),
    tick.toNat ≠ ((st.strip s).lastTick.toNat + 1) % 2 ^ 32 →
    ∃ t, exec (.fade s now tick) st = .next t ∧
      ∀ ch, ForBoth (fun _ x y => x.cur ≠ x.tgt → y.ts = now ∧
        y.cur = (if x.ft = 0 ∨ x.cv = .none then x.tgt else x.anc) ∧ y.anc = y.cur ∧ y.tgt = x.tgt ∧ y.ft = x.ft) (st.channel s ch) (t.channel s ch)

/-- A component retargeted to its anchor value jumps to it and settles in one FADE, whatever the fade time (R144). -/
def Obligations.RetargetToAnchorSettles : Prop :=
  ∀ (s : StripId) (now tick : Word) (st : State), ∃ t, exec (.fade s now tick) st = .next t ∧
    ∀ ch, ForBoth (fun _ x y => x.tgt = x.anc → y.cur = x.tgt ∧ y.anc = x.tgt ∧ y.tgt = x.tgt) (st.channel s ch) (t.channel s ch)

/-- Without a gap, a component whose fade time has elapsed (or is 0) is at its target after the FADE, and its anchor
with it; when that holds of every component of the strip, STATUS.SETTLED<s> is 1 (R149, R140). -/
def Obligations.FadeCompletesWhenTimeIsUp : Prop :=
  ∀ (s : StripId) (now tick : Word) (st : State),
    tick.toNat = ((st.strip s).lastTick.toNat + 1) % 2 ^ 32 →
    ∃ t, exec (.fade s now tick) st = .next t ∧
      (∀ ch, ForBoth (fun _ x y => x.cur = x.tgt ∨ x.ft.toNat ≤ elapsedQ now x.ts → y.cur = x.tgt ∧ y.anc = x.tgt)
        (st.channel s ch) (t.channel s ch)) ∧
      ((∀ ch, ForBoth (fun _ x _ => x.cur = x.tgt ∨ x.ft.toNat ≤ elapsedQ now x.ts) (st.channel s ch)
        (st.channel s ch)) → t.status.settled s = true)

/-- Without a gap, at a time d ms before a component's timestamp (modulo 2^32), the elapsed time is 2^32 - d and the
component keeps its timestamp: a component whose fade time is at most that is at its target after the FADE, anchor
included (R140, R145, R255). For a greater fade time the value is the one of R140's formula and R135's pseudocode, where
R145 and R255 say in words that the component completes: the model's choice, log entry 16. -/
def Obligations.BackwardTimeCompletes : Prop :=
  ∀ (s : StripId) (now tick : Word) (st : State),
    tick.toNat = ((st.strip s).lastTick.toNat + 1) % 2 ^ 32 →
    ∃ t, exec (.fade s now tick) st = .next t ∧
      ∀ ch, ForBoth (fun _ x y => ∀ d : ℕ, 1 ≤ d → d < 2 ^ 32 → now = x.ts - BitVec.ofNat 32 d → x.cur ≠ x.tgt →
        y.ts = x.ts ∧
        if x.ft.toNat ≤ 2 ^ 32 - d then y.cur = x.tgt ∧ y.anc = x.tgt
        else (y.cur.toNat : ℤ) =
          curveQ x.cv (((2 ^ 32 - d : ℕ) : ℚ) / x.ft.toNat) x.anc.toNat x.tgt.toNat)
        (st.channel s ch) (t.channel s ch)

/-- Without a gap, at a time e ms after a component's timestamp, across the wrap of the clock or not, the component keeps
its timestamp and its value is the curve's at min(1, e / ft), at 1 for a zero fade time (R138, R140, and R145 for the
wrap). For the reading of an e close to 2^32 as backward time, see log entry 16. -/
def Obligations.FadeIsTimedAcrossTheWrap : Prop :=
  ∀ (s : StripId) (now tick : Word) (st : State),
    tick.toNat = ((st.strip s).lastTick.toNat + 1) % 2 ^ 32 →
    ∃ t, exec (.fade s now tick) st = .next t ∧
      ∀ ch, ForBoth (fun _ x y => ∀ e : ℕ, e < 2 ^ 32 → now = x.ts + BitVec.ofNat 32 e → x.cur ≠ x.tgt →
        y.ts = x.ts ∧ (y.cur.toNat : ℤ) =
          curveQ x.cv (if x.ft = 0 then 1 else min 1 ((e : ℚ) / x.ft.toNat)) x.anc.toNat x.tgt.toNat)
        (st.channel s ch) (t.channel s ch)

/-- A strip whose components are all at their targets keeps every current value under FADE, gap or not, and stays
settled (R137, R149). -/
def Obligations.SettledStripStaysSettled : Prop :=
  ∀ (s : StripId) (now tick : Word) (st : State),
    (∀ ch, ForBoth (fun _ x _ => x.cur = x.tgt) (st.channel s ch) (st.channel s ch)) →
    ∃ t, exec (.fade s now tick) st = .next t ∧ t.status.settled s = true ∧
      ∀ ch, ForBoth (fun _ x y => y.cur = x.cur ∧ y.tgt = x.tgt) (st.channel s ch) (t.channel s ch)

/-- After FADE or SETC a component whose current value equals its target has its anchor there too (R150 a). -/
def Obligations.SettledComponentsAreAnchored : Prop :=
  ∀ (s : StripId) (now tick : Word) (st : State), ∀ i ∈ [Instr.fade s now tick, Instr.setc s now tick],
    ∃ t, exec i st = .next t ∧
      ∀ ch, ForBoth (fun _ _ y => y.cur = y.tgt → y.anc = y.tgt) (st.channel s ch) (t.channel s ch)

/-- Any step leaves an anchor alone or moves it to the value the component then holds, never to a target its component
has not reached (R139, R150 b and c). -/
def Obligations.AnchorMovesOnlyToReachedValue : Prop :=
  ∀ (st t : State), step st = .next t →
    ∀ s ch, ForBoth (fun _ x y => y.anc = x.anc ∨ y.anc = y.cur) (st.channel s ch) (t.channel s ch)

/-- Two strips in the same state, given the same now and tick, are in the same state after FADE of both
(R253, R130). -/
def Obligations.EqualStripsFadeAlike : Prop :=
  ∀ (now tick : Word) (st : State), st.strip .s0 = st.strip .s1 →
    ∃ t u, exec (.fade .s0 now tick) st = .next t ∧ exec (.fade .s1 now tick) t = .next u ∧
      u.strip .s0 = u.strip .s1 ∧ u.status.settled .s0 = u.status.settled .s1

/-! ### The PWM writer (42_pwm.md) -/

/-- The duty is 0 for a zero color or brightness, else N / 4095 with N = (c + 1) * 16 * b, rounded to the nearest
integer and saturated at 4095; N fits 25 bits, and R170's integer division is that rounding (R170). -/
def Obligations.DutyIsRoundedProduct : Prop :=
  ∀ (c : Color) (b : Bright),
    (c.toNat + 1) * 16 * b.toNat ≤ 16773120 ∧
    ((((2 * ((c.toNat + 1) * 16 * b.toNat) + 4095) / 8190 : ℕ) : ℤ) =
      round ((((c.toNat + 1) * 16 * b.toNat : ℕ) : ℚ) / 4095)) ∧
    if c = 0 ∨ b = 0 then duty c b = 0
    else (duty c b : ℤ) = min 4095 (round ((((c.toNat + 1) * 16 * b.toNat : ℕ) : ℚ) / 4095)) ∧
      duty c b = min 4095 ((2 * ((c.toNat + 1) * 16 * b.toNat) + 4095) / 8190)

/-- No rounding tie occurs: any integer within one half of N / 4095 is the one of R170, and the duty of a non-zero pair
is that integer saturated (R172). -/
def Obligations.DutyHasNoTies : Prop :=
  ∀ (c : Color) (b : Bright),
    (2 * ((c.toNat + 1) * 16 * b.toNat)) % 8190 ≠ 4095 ∧
    ∀ r : ℤ, |(r : ℚ) - (((c.toNat + 1) * 16 * b.toNat : ℕ) : ℚ) / 4095| ≤ 1 / 2 →
      r = ((2 * ((c.toNat + 1) * 16 * b.toNat) + 4095) / 8190 : ℕ) ∧
      (c ≠ 0 → b ≠ 0 → (duty c b : ℤ) = min 4095 r)

/-- Saturation happens only at (255, 4095), where N / 4095 is 4096; at (255, 4094) the rounded value is 4095, and with
c <= 254 it is at most 4080 (R173). -/
def Obligations.DutySaturatesOnlyAtFull : Prop :=
  ∀ (c : Color) (b : Bright),
    (4095 < (2 * ((c.toNat + 1) * 16 * b.toNat) + 4095) / 8190 ↔ c.toNat = 255 ∧ b.toNat = 4095) ∧
    (c.toNat = 255 → b.toNat = 4095 → (c.toNat + 1) * 16 * b.toNat = 4096 * 4095 ∧ duty c b = 4095) ∧
    duty c b ≤ 4095 ∧
    (c.toNat ≤ 254 → (2 * ((c.toNat + 1) * 16 * b.toNat) + 4095) / 8190 ≤ 4080 ∧ duty c b ≤ 4080) ∧
    (c.toNat = 255 → b.toNat = 4094 →
      (2 * ((c.toNat + 1) * 16 * b.toNat) + 4095) / 8190 = 4095 ∧ duty c b = 4095)

/-- Duty(0, b) = 0 and Duty(c, 0) = 0 (R171). -/
def Obligations.DutyZero : Prop := (∀ b : Bright, duty 0 b = 0) ∧ ∀ c : Color, duty c 0 = 0

/-- A pair with N / 4095 below one half has duty 0, such as (1, 1); and at full brightness no duty lies between 1 and
31 (R174). -/
def Obligations.SmallDuties : Prop :=
  (∀ (c : Color) (b : Bright), (((c.toNat + 1) * 16 * b.toNat : ℕ) : ℚ) / 4095 < 1 / 2 → duty c b = 0) ∧
  duty 1 1 = 0 ∧ duty 1 4095 = 32 ∧ ∀ c : Color, duty c 4095 = 0 ∨ 32 ≤ duty c 4095

/-- DUTY writes the duty to RESULT, zero-extended, and nothing else (R33, R180). -/
def Obligations.DutyWritesResult : Prop :=
  ∀ (c : Color) (b : Bright) (st : State), ∃ t, exec (.duty c b) st = .next t ∧
    t.result.toNat =
      (if c = 0 ∨ b = 0 then 0 else min 4095 ((2 * ((c.toNat + 1) * 16 * b.toNat) + 4095) / 8190)) ∧
    t.strips = st.strips ∧ t.status = st.status ∧ t.faultW0 = st.faultW0 ∧ KeepsPorts st t

/-- UPD appends, channel by channel in order, the four writes of every channel that changed or was never written,
takes their pairs into the shadow, and does nothing else (R53, R56, R175, R176, R182 to R184). -/
def Obligations.UpdWritesChangedChannels : Prop :=
  ∀ (s : StripId) (st : State), ∃ t, exec (.upd s) st = .next t ∧
    t.writes = st.writes ++ [Chan.red, .green, .blue, .coldWhite, .warmWhite].flatMap (fun ch =>
      if (st.channel s ch).shv = false ∨ (st.channel s ch).shC ≠ (st.channel s ch).color.cur ∨
          (st.channel s ch).shB ≠ (st.channel s ch).bright.cur then
        channelEvents Config.block s ch (duty (st.channel s ch).color.cur (st.channel s ch).bright.cur)
      else []) ∧
    (∀ ch, (t.channel s ch).shv = true ∧ (t.channel s ch).shC = (st.channel s ch).color.cur ∧
      (t.channel s ch).shB = (st.channel s ch).bright.cur ∧ (t.channel s ch).color = (st.channel s ch).color ∧
      (t.channel s ch).bright = (st.channel s ch).bright ∧ (t.channel s ch).settled = (st.channel s ch).settled) ∧
    (t.strip s).lastTick = (st.strip s).lastTick ∧ (∀ s', s' ≠ s → t.strip s' = st.strip s') ∧
    t.status = st.status ∧ t.result = st.result ∧ t.faultW0 = st.faultW0 ∧ t.port = st.port

/-- A UPD right after a UPD of the same strip changes nothing and writes nothing (R185, R60). -/
def Obligations.UpdTwiceWritesOnce : Prop :=
  ∀ (s : StripId) (st : State), ∃ t, exec (.upd s) st = .next t ∧ exec (.upd s) t = .next t

/-- What UPD writes does not depend on the staging registers: a load before it changes none of its events
(R132, R185). -/
def Obligations.UpdIgnoresStaging : Prop :=
  ∀ (s s' : StripId) (ch : Chan) (cv : Curve) (color : Color) (bright : Bright) (ft : Word) (st : State),
    ∀ i ∈ [Instr.ldcol s' ch cv color ft, Instr.ldbri s' ch cv bright ft],
      ∃ t u v, exec (.upd s) st = .next t ∧ exec i st = .next u ∧ exec (.upd s) u = .next v ∧
        v.writes = t.writes ∧ ∀ s'' ch', KeepsShadow (t.channel s'' ch') (v.channel s'' ch')

/-- After a reset the first UPD of each strip, in either order, writes all its five channels with ON = OFF = PHASE when
SHADOW_INIT is invalid, and nothing when it is zero; the reset itself writes nothing and clears nothing of the history
(R241). -/
def Obligations.FirstUpdAfterReset : Prop :=
  ∀ (P : Params) (s s' : StripId) (st : State), s' ≠ s →
    (resetState P st).writes = st.writes ∧
    (P.shadowInit = .invalid →
      (updStrip P s (resetState P st)).writes =
        st.writes ++ [Chan.red, .green, .blue, .coldWhite, .warmWhite].flatMap (channelEvents P s · 0) ∧
      (updStrip P s' (updStrip P s (resetState P st))).writes =
        st.writes ++ [Chan.red, .green, .blue, .coldWhite, .warmWhite].flatMap (channelEvents P s · 0) ++
          [Chan.red, .green, .blue, .coldWhite, .warmWhite].flatMap (channelEvents P s' · 0)) ∧
    (P.shadowInit = .zero → (updStrip P s' (updStrip P s (resetState P st))).writes = st.writes)

/-! ### Whole-machine rules -/

/-- STATUS as a word: SETTLED0, SETTLED1, ERR, MERR at bits 0 to 3, CAUSE at 7:4, bits 31:8 zero (R32). -/
def Obligations.StatusWordLayout : Prop :=
  ∀ st : State, st.readStatus.toNat =
    st.status.settled0.toNat + 2 * st.status.settled1.toNat + 4 * st.status.err.toNat + 8 * st.status.merr.toNat +
      16 * st.status.cause.toNat

/-- Which command writes which state (R36): every element changes only under the commands the table lists; an illegal
command writes only the error fields; NOP writes nothing. -/
def Obligations.OnlyListedCommandsWrite : Prop :=
  ∀ (st t : State) (c : Command) (rest : List Command), st.port = c :: rest → step st = .next t →
    match decode c with
    | .error _ =>
      t.strips = st.strips ∧ t.status.settled0 = st.status.settled0 ∧ t.status.settled1 = st.status.settled1 ∧
      t.result = st.result ∧ t.writes = st.writes
    | .ok i =>
      (∀ s, (∀ now tick, i ≠ .fade s now tick) → (∀ now tick, i ≠ .setc s now tick) → i ≠ .rst →
        SameFadeState (st.strip s) (t.strip s) ∧ t.status.settled s = st.status.settled s) ∧
      (∀ s ch, (∀ cv color ft, i ≠ .ldcol s ch cv color ft) → i ≠ .rst →
        SameStaging (st.channel s ch).color (t.channel s ch).color) ∧
      (∀ s ch, (∀ cv bright ft, i ≠ .ldbri s ch cv bright ft) → i ≠ .rst →
        SameStaging (st.channel s ch).bright (t.channel s ch).bright) ∧
      (∀ s, i ≠ .upd s → i ≠ .rst → ∀ ch, KeepsShadow (st.channel s ch) (t.channel s ch)) ∧
      ((∀ cv a b e ft, i ≠ .eval cv a b e ft) → (∀ color bright, i ≠ .duty color bright) → i ≠ .rst →
        t.result = st.result) ∧
      (i ≠ .rst → KeepsErrors st t) ∧
      (i = .nop → t = { st with port := rest })

/-- No command reads a STATUS field, RESULT or FAULTW0: from two states that differ only in them, a command does the
same to everything it writes, among them RESULT for EVAL and DUTY, SETTLED<s> for FADE and SETC on s and all three for
RST, and leaves the outputs it does not write as it found them (R33 to R36). -/
def Obligations.OutputsAreNeverRead : Prop :=
  ∀ (i : Instr) (st : State) (x : Status) (r f : Word),
    ∃ t u, exec i st = .next t ∧ exec i { st with status := x, result := r, faultW0 := f } = .next u ∧
      u.strips = t.strips ∧ KeepsPorts t u ∧
      match i with
      | .eval .. | .duty .. => u.result = t.result ∧ u.status = x ∧ u.faultW0 = f
      | .fade s .. | .setc s .. =>
        u.status.settled s = t.status.settled s ∧ (∀ s', s' ≠ s → u.status.settled s' = x.settled s') ∧
        KeepsErrors { st with status := x, faultW0 := f } u ∧ u.result = r
      | .rst => u.status = t.status ∧ u.result = t.result ∧ u.faultW0 = t.faultW0
      | .nop | .ldcol .. | .ldbri .. | .upd .. => u.status = x ∧ u.result = r ∧ u.faultW0 = f

/-- Once ERR is 1 only RST clears the error fields: ERR, CAUSE and FAULTW0 keep their values, and MERR keeps its own
under legal commands and is set by an illegal one (R219). -/
def Obligations.ErrorsStickUntilReset : Prop :=
  ∀ st t : State, step st = .next t → st.status.err = true →
    (∀ c rest, st.port = c :: rest → decode c ≠ .ok .rst) →
    t.status.err = true ∧ t.status.cause = st.status.cause ∧ t.faultW0 = st.faultW0 ∧
      (st.status.merr = true → t.status.merr = true) ∧
      (∀ c rest, st.port = c :: rest → t.status.merr =
        match decode c with
        | .ok _ => st.status.merr
        | .error _ => true)

/-- No legal command raises the error: executing one other than RST leaves ERR, MERR, CAUSE and FAULTW0 alone, and RST
clears them (R210). -/
def Obligations.LegalCommandsNeverErr : Prop :=
  ∀ (i : Instr) (st : State), ∃ t, exec i st = .next t ∧
    if i = .rst then t.status.err = false ∧ t.status.merr = false ∧ t.status.cause = 0 ∧ t.faultW0 = 0
    else KeepsErrors st t

/-- The write history only grows, by at most 20 events a step, and only UPD adds any (R54, R55, R64). -/
def Obligations.WriteHistoryOnlyGrows : Prop :=
  ∀ st t : State, step st = .next t →
    ∃ ws : List BusWrite, t.writes = st.writes ++ ws ∧ ws.length ≤ 20 ∧
      ((∀ c rest s, st.port = c :: rest → decode c ≠ .ok (.upd s)) → ws = [])

/-- Every step keeps the invariant: the error latch (R32, R34, R211), RESULT's zero bits (R33), SETTLED<s> as the AND
of the SET flags (R141), the unwritten shadow (R30) and the shape of every event emitted (R53, R186). -/
def Obligations.StepKeepsInvariant : Prop := ∀ st t : State, Inv st → step st = .next t → Inv t

/-- The state after reset meets the invariant (R38). -/
def Obligations.ResetMeetsInvariant : Prop := Inv State.reset
end

