-- ==== Sys2Proof/Laws/Decode.lean ====
section
/-! SUPPORT. The encoding tables read both ways, and the rows of the opcode table disjoint. -/

namespace Sys2Proof

@[simp] theorem Opcode.ofCode_code (op : Opcode) : Opcode.ofCode op.code = some op := by cases op <;> rfl
@[simp] theorem StripId.ofCode_code (s : StripId) : StripId.ofCode s.code = s := by cases s <;> rfl
@[simp] theorem Chan.ofCode_code (ch : Chan) : Chan.ofCode ch.code = some ch := by cases ch <;> rfl
@[simp] theorem Curve.ofCode_code (cv : Curve) : Curve.ofCode cv.code = some cv := by cases cv <;> rfl

@[simp] theorem StripId.code_ofCode (b : BitVec 1) : (StripId.ofCode b).code = b := by
  revert b; decide

theorem Opcode.ofCode_eq_some {b : BitVec 4} {op : Opcode} : Opcode.ofCode b = some op ↔ op.code = b := by
  cases op <;> revert b <;> decide

theorem Chan.ofCode_eq_some {b : BitVec 3} {ch : Chan} : Chan.ofCode b = some ch ↔ ch.code = b := by
  cases ch <;> revert b <;> decide

theorem Curve.ofCode_eq_some {b : BitVec 3} {cv : Curve} : Curve.ofCode b = some cv ↔ cv.code = b := by
  cases cv <;> revert b <;> decide

theorem Opcode.ofCode_eq_none {b : BitVec 4} : Opcode.ofCode b = none ↔ 8 ≤ b.toNat ∧ b.toNat ≤ 14 := by
  revert b; decide

theorem Chan.ofCode_eq_none {b : BitVec 3} : Chan.ofCode b = none ↔ 5 ≤ b.toNat := by
  revert b; decide

theorem Curve.ofCode_eq_none {b : BitVec 3} : Curve.ofCode b = Option.none ↔ 5 ≤ b.toNat := by
  revert b; decide

/-- Some bit that both rows fix is fixed differently. -/
def TableRow.apart (r r' : TableRow) : Bool := r.pattern &&& r.mask &&& r'.mask != r'.pattern &&& r.mask &&& r'.mask

/-- No two rows of the opcode table overlap. -/
theorem opcodeTable_pairwise_apart : opcodeTable.Pairwise fun r r' => r.apart r' = true := by decide

/-! ### The layout of W0 -/

theorem packW0_op (op : Opcode) (s : BitVec 1) (ch cv : BitVec 3) (v : BitVec 12) :
    (packW0 op s ch cv v).extractLsb' 28 4 = op.code := by
  apply BitVec.eq_of_getLsbD_eq
  intro i hi
  simp only [packW0, BitVec.getLsbD_extractLsb', BitVec.getLsbD_append]
  interval_cases i <;> simp

theorem packW0_strip (op : Opcode) (s : BitVec 1) (ch cv : BitVec 3) (v : BitVec 12) :
    (packW0 op s ch cv v).extractLsb' 23 1 = s := by
  apply BitVec.eq_of_getLsbD_eq
  intro i hi
  simp only [packW0, BitVec.getLsbD_extractLsb', BitVec.getLsbD_append]
  obtain rfl : i = 0 := by omega
  simp

theorem packW0_chan (op : Opcode) (s : BitVec 1) (ch cv : BitVec 3) (v : BitVec 12) :
    (packW0 op s ch cv v).extractLsb' 20 3 = ch := by
  apply BitVec.eq_of_getLsbD_eq
  intro i hi
  simp only [packW0, BitVec.getLsbD_extractLsb', BitVec.getLsbD_append]
  interval_cases i <;> simp

theorem packW0_curve (op : Opcode) (s : BitVec 1) (ch cv : BitVec 3) (v : BitVec 12) :
    (packW0 op s ch cv v).extractLsb' 16 3 = cv := by
  apply BitVec.eq_of_getLsbD_eq
  intro i hi
  simp only [packW0, BitVec.getLsbD_extractLsb', BitVec.getLsbD_append]
  interval_cases i <;> simp

theorem packW0_val (op : Opcode) (s : BitVec 1) (ch cv : BitVec 3) (v : BitVec 12) :
    (packW0 op s ch cv v).extractLsb' 0 12 = v := by
  apply BitVec.eq_of_getLsbD_eq
  intro i hi
  simp only [packW0, BitVec.getLsbD_extractLsb', BitVec.getLsbD_append]
  interval_cases i <;> simp

/-- Masking W0 masks each of its fields. -/
theorem packW0_and (op : Opcode) (s : BitVec 1) (ch cv : BitVec 3) (v : BitVec 12) (m : Word) :
    packW0 op s ch cv v &&& m =
      (op.code &&& m.extractLsb' 28 4) ++ 0#4 ++ (s &&& m.extractLsb' 23 1) ++ (ch &&& m.extractLsb' 20 3) ++ 0#1 ++
        (cv &&& m.extractLsb' 16 3) ++ 0#4 ++ (v &&& m.extractLsb' 0 12) := by
  apply BitVec.eq_of_getLsbD_eq
  intro i hi
  simp only [packW0, BitVec.getLsbD_and, BitVec.getLsbD_append, BitVec.getLsbD_extractLsb']
  interval_cases i <;> simp

/-- W0 as the sum of its fields at their places (R71). -/
theorem packW0_toNat (op : Opcode) (s : BitVec 1) (ch cv : BitVec 3) (v : BitVec 12) :
    (packW0 op s ch cv v).toNat =
      op.code.toNat * 2 ^ 28 + s.toNat * 2 ^ 23 + ch.toNat * 2 ^ 20 + cv.toNat * 2 ^ 16 + v.toNat := by
  have hs := s.isLt
  have hc := ch.isLt
  have hk := cv.isLt
  have hv := v.isLt
  simp only [packW0, BitVec.toNat_append, BitVec.toNat_ofNat, Nat.zero_mod]
  rw [← Nat.shiftLeft_add_eq_or_of_lt hv, ← Nat.shiftLeft_add_eq_or_of_lt (by decide : 0 < 2 ^ 4),
    ← Nat.shiftLeft_add_eq_or_of_lt hk, ← Nat.shiftLeft_add_eq_or_of_lt (by decide : 0 < 2 ^ 1),
    ← Nat.shiftLeft_add_eq_or_of_lt hc, ← Nat.shiftLeft_add_eq_or_of_lt hs,
    ← Nat.shiftLeft_add_eq_or_of_lt (by decide : 0 < 2 ^ 4)]
  simp only [Nat.shiftLeft_eq]
  omega

/-! ### Zero-extended operands -/

theorem color_and_high12 (c : Color) : c.setWidth 12 &&& 0xF00#12 = 0 := by
  apply BitVec.eq_of_getLsbD_eq
  intro i hi
  simp only [BitVec.getLsbD_and, BitVec.getLsbD_setWidth]
  interval_cases i <;> simp

theorem color_and_high32 (c : Color) : c.setWidth 32 &&& 0xFFFFFF00#32 = 0 := by
  apply BitVec.eq_of_getLsbD_eq
  intro i hi
  simp only [BitVec.getLsbD_and, BitVec.getLsbD_setWidth]
  interval_cases i <;> simp

theorem bright_and_high32 (b : Bright) : b.setWidth 32 &&& 0xFFFFF000#32 = 0 := by
  apply BitVec.eq_of_getLsbD_eq
  intro i hi
  simp only [BitVec.getLsbD_and, BitVec.getLsbD_setWidth]
  interval_cases i <;> simp

theorem Chan.code_lt (ch : Chan) : ch.code.toNat < 5 := by cases ch <;> decide

theorem Curve.code_lt (cv : Curve) : cv.code.toNat < 5 := by cases cv <;> decide

theorem packW0_valColor (op : Opcode) (s : BitVec 1) (ch cv : BitVec 3) (c : Color) :
    (packW0 op s ch cv (c.setWidth 12)).extractLsb' 0 8 = c := by
  apply BitVec.eq_of_getLsbD_eq
  intro i hi
  simp only [packW0, BitVec.getLsbD_extractLsb', BitVec.getLsbD_append]
  interval_cases i <;> simp

theorem bright_low_setWidth (b : Bright) : (b.setWidth 32).extractLsb' 0 12 = b := by
  apply BitVec.eq_of_getLsbD_eq
  intro i hi
  simp [hi]
  omega

theorem color_low_setWidth (c : Color) : (c.setWidth 32).extractLsb' 0 8 = c := by
  apply BitVec.eq_of_getLsbD_eq
  intro i hi
  simp [hi]
  omega

/-! ### Masks and the bits they name -/

theorem getLsbD_of_and_eq_zero {w : Nat} {x m : BitVec w} (h : x &&& m = 0) (i : Nat) (hm : m.getLsbD i = true) :
    x.getLsbD i = false := by
  have := congrArg (fun y => y.getLsbD i) h
  simpa [hm] using this

theorem getElem_of_and_eq_zero {w : Nat} {x m : BitVec w} (h : x &&& m = 0) (i : Nat) (hi : i < w)
    (hm : m[i] = true) : x[i] = false := by
  have := getLsbD_of_and_eq_zero h i (by simpa [hi] using hm)
  simpa [hi] using this

theorem and_allOnes32 (w : Word) : w &&& 0xFFFFFFFF#32 = w := by
  rw [show (0xFFFFFFFF#32) = BitVec.allOnes 32 from rfl, BitVec.and_allOnes]

/-- A mask that names fewer bits finds none either. -/
theorem and_eq_zero_of_submask {w : Nat} {x m m' : BitVec w} (h : x &&& m = 0) (hm : m' &&& ~~~m = 0) :
    x &&& m' = 0 := by
  apply BitVec.eq_of_getLsbD_eq
  intro i hi
  have h1 := congrArg (fun y => y.getLsbD i) h
  have h2 := congrArg (fun y => y.getLsbD i) hm
  simp [hi] at h1 h2 ⊢
  intro hx
  by_contra hc
  simp at hc
  have := h2 hc
  simp [h1 hx] at this

/-- A field all of whose bits the mask names is 0. -/
theorem extract_eq_zero_of_and {w m : Word} (h : w &&& m = 0) (k n : Nat) (hm : m.extractLsb' k n = -1) :
    w.extractLsb' k n = 0 := by
  apply BitVec.eq_of_getLsbD_eq
  intro i hi
  have h2 := congrArg (fun y => y.getLsbD i) hm
  simp [hi, BitVec.neg_one_eq_allOnes] at h2 ⊢
  exact getLsbD_of_and_eq_zero h _ h2

theorem setWidth_low12 {w : Word} (h : w &&& 0xFFFFF000#32 = 0) : (w.extractLsb' 0 12).setWidth 32 = w := by
  have hb := getElem_of_and_eq_zero h
  apply BitVec.eq_of_getLsbD_eq
  intro i hi
  simp only [BitVec.getLsbD_setWidth, BitVec.getLsbD_extractLsb']
  interval_cases i <;> simp [hb]

theorem setWidth_low8 {w : Word} (h : w &&& 0xFFFFFF00#32 = 0) : (w.extractLsb' 0 8).setWidth 32 = w := by
  have hb := getElem_of_and_eq_zero h
  apply BitVec.eq_of_getLsbD_eq
  intro i hi
  simp only [BitVec.getLsbD_setWidth, BitVec.getLsbD_extractLsb']
  interval_cases i <;> simp [hb]

theorem setWidth_color_val {w : Word} (h : w &&& 0xF00#32 = 0) :
    (w.extractLsb' 0 8).setWidth 12 = w.extractLsb' 0 12 := by
  have hb := getElem_of_and_eq_zero h
  apply BitVec.eq_of_getLsbD_eq
  intro i hi
  simp only [BitVec.getLsbD_setWidth, BitVec.getLsbD_extractLsb']
  interval_cases i <;> simp [hb]

/-- A W0 whose gaps are 0 is its own fields packed. -/
theorem packW0_fields {w : Word} {op : Opcode} (hop : op.code = w.extractLsb' 28 4) (h : w &&& 0x0F08F000#32 = 0) :
    packW0 op (w.extractLsb' 23 1) (w.extractLsb' 20 3) (w.extractLsb' 16 3) (w.extractLsb' 0 12) = w := by
  have hb := getElem_of_and_eq_zero h
  apply BitVec.eq_of_getLsbD_eq
  intro i hi
  simp only [packW0, hop, BitVec.getLsbD_extractLsb', BitVec.getLsbD_append]
  interval_cases i <;> simp [hb]

/-- A test of two disjoint masks at once, the second of which must find 0. -/
theorem and_or_eq_iff {w : Nat} (x f z p : BitVec w) (hd : f &&& z = 0) (hp : p &&& ~~~f = 0) :
    x &&& (f ||| z) = p ↔ x &&& f = p ∧ x &&& z = 0 := by
  constructor
  · rintro rfl
    constructor
    · apply BitVec.eq_of_getLsbD_eq
      intro i hi
      have h1 := congrArg (fun y => y.getLsbD i) hp
      have h2 := congrArg (fun y => y.getLsbD i) hd
      simp [hi] at *
      grind
    · apply BitVec.eq_of_getLsbD_eq
      intro i hi
      have h1 := congrArg (fun y => y.getLsbD i) hp
      have h2 := congrArg (fun y => y.getLsbD i) hd
      simp [hi] at *
      grind
  · rintro ⟨rfl, h2⟩
    apply BitVec.eq_of_getLsbD_eq
    intro i hi
    have := congrArg (fun y => y.getLsbD i) h2
    simp [hi] at *
    grind

/-- The opcode field as a number. -/
theorem op_toNat (c : Command) : c.op.toNat = c.w0.toNat / 2 ^ 28 := by
  have := c.w0.isLt
  simp [Command.op, BitVec.extractLsb'_toNat, Nat.shiftRight_eq_div_pow]
  omega

theorem and_opMask_iff (c : Command) (k : BitVec 4) : c.w0 &&& 0xF0000000#32 = k ++ 0#28 ↔ c.op = k := by
  constructor
  · intro h
    apply BitVec.eq_of_getLsbD_eq
    intro i hi
    have := congrArg (fun y => y.getLsbD (28 + i)) h
    simp only [Command.op, BitVec.getLsbD_and, BitVec.getLsbD_append, BitVec.getLsbD_extractLsb'] at this ⊢
    interval_cases i <;> simp_all
  · rintro rfl
    apply BitVec.eq_of_getLsbD_eq
    intro i hi
    simp only [Command.op, BitVec.getLsbD_and, BitVec.getLsbD_append, BitVec.getLsbD_extractLsb']
    interval_cases i <;> simp

/-! ### The rows of the opcode table against the masks of the decoder -/

/-- On a command with the row's opcode, the row's fixed and zero bits hold exactly when no reserved bit is set. -/
theorem row_bits_eq_not_reserved (r : TableRow) (hr : r ∈ opcodeTable) (c : Command) (h : c.op = r.op.code) :
    (r.fixedBits c && r.zeroWords c) = !reservedBitsSet r.op c := by
  have hf : ∀ (z m p : Word) (k : BitVec 4), m = 0xF0000000#32 ||| z → 0xF0000000#32 &&& z = 0 → p = k ++ 0#28 →
      r.op.code = k → (c.w0 &&& m = p ↔ c.w0 &&& z = 0) := by
    intro z m p k hm hz hp hk
    subst hm hp hk
    rw [and_or_eq_iff c.w0 _ z _ hz (by cases r.op <;> decide), and_opMask_iff]
    simp [h]
  simp only [opcodeTable, List.mem_cons, List.not_mem_nil, or_false] at hr
  rw [Bool.eq_iff_iff]
  simp only [TableRow.fixedBits, TableRow.zeroWords, reservedBitsSet, Bool.and_eq_true, beq_iff_eq,
    Bool.not_eq_true', Bool.or_eq_false_iff, bne_eq_false_iff_eq, and_assoc]
  rcases hr with rfl | rfl | rfl | rfl | rfl | rfl | rfl | rfl | rfl <;>
    · simp only [usedMasks] at *
      refine and_congr (hf _ _ _ _ ?_ ?_ ?_ rfl) Iff.rfl <;> decide

theorem chanOk_iff (r : TableRow) (c : Command) :
    r.chanOk c = true ↔ (r.hasChan = true → ∃ ch, Chan.ofCode c.chanField = some ch) := by
  have := @Chan.ofCode_eq_none c.chanField
  cases h : Chan.ofCode c.chanField <;> cases h2 : r.hasChan <;> simp_all [TableRow.chanOk, Command.chanField]

theorem curveOk_iff (r : TableRow) (c : Command) :
    r.curveOk c = true ↔ (r.hasCurve = true → ∃ cv, Curve.ofCode c.curveField = some cv) := by
  have := @Curve.ofCode_eq_none c.curveField
  cases h : Curve.ofCode c.curveField <;> cases h2 : r.hasCurve <;> simp_all [TableRow.curveOk, Command.curveField]

/-- A command with a row's fixed bits has the row's opcode. -/
theorem op_of_fixedBits (r : TableRow) (hr : r ∈ opcodeTable) (c : Command) (hf : r.fixedBits c = true) :
    c.op = r.op.code := by
  simp only [TableRow.fixedBits, beq_iff_eq] at hf
  have h2 : r.mask &&& 0xF0000000#32 = 0xF0000000#32 ∧ r.pattern &&& 0xF0000000#32 = r.op.code ++ 0#28 := by
    clear hf
    revert r
    decide
  rw [← and_opMask_iff, ← h2.2, ← hf, BitVec.and_assoc, h2.1]

end Sys2Proof
end

