-- ==== Sys2Proof/Laws/State.lean ====
section
/-! SUPPORT. The small lemmas of the state's accessors and updates: reading after writing, and what each update leaves
alone, so that no later proof unfolds a record update. -/

namespace Sys2Proof.Machine

/-! ### Values per channel and per strip -/

@[simp] theorem PerChan.get_set_self {α : Type} (x : PerChan α) (ch : Chan) (v : α) : (x.set ch v).get ch = v := by
  cases ch <;> rfl

theorem PerChan.get_set_ne {α : Type} (x : PerChan α) {ch ch' : Chan} (v : α) (h : ch' ≠ ch) :
    (x.set ch v).get ch' = x.get ch' := by
  cases ch <;> cases ch' <;> first | rfl | exact absurd rfl h

theorem PerChan.get_set {α : Type} (x : PerChan α) (ch ch' : Chan) (v : α) :
    (x.set ch v).get ch' = if ch' = ch then v else x.get ch' := by
  split
  · subst ch'; simp
  · exact PerChan.get_set_ne x v ‹_›

@[simp] theorem PerChan.get_map {α β : Type} (f : α → β) (x : PerChan α) (ch : Chan) :
    (x.map f).get ch = f (x.get ch) := by
  cases ch <;> rfl

theorem PerChan.ext_get {α : Type} {x y : PerChan α} (h : ∀ ch, x.get ch = y.get ch) : x = y := by
  obtain ⟨r, g, b, c, w⟩ := x
  obtain ⟨r', g', b', c', w'⟩ := y
  have h1 := h .red
  have h2 := h .green
  have h3 := h .blue
  have h4 := h .coldWhite
  have h5 := h .warmWhite
  simp only [PerChan.get] at h1 h2 h3 h4 h5
  subst_vars
  rfl

theorem PerChan.all_iff {α : Type} (f : α → Bool) (x : PerChan α) : x.all f = true ↔ ∀ ch, f (x.get ch) = true := by
  constructor
  · intro h ch
    simp only [PerChan.all, Bool.and_eq_true] at h
    cases ch <;> simp [PerChan.get, h]
  · intro h
    simp only [PerChan.all, Bool.and_eq_true]
    exact ⟨⟨⟨⟨h .red, h .green⟩, h .blue⟩, h .coldWhite⟩, h .warmWhite⟩

@[simp] theorem PerStrip.get_set_self {α : Type} (x : PerStrip α) (s : StripId) (v : α) : (x.set s v).get s = v := by
  cases s <;> rfl

theorem PerStrip.get_set_ne {α : Type} (x : PerStrip α) {s s' : StripId} (v : α) (h : s' ≠ s) :
    (x.set s v).get s' = x.get s' := by
  cases s <;> cases s' <;> first | rfl | exact absurd rfl h

theorem PerStrip.get_set {α : Type} (x : PerStrip α) (s s' : StripId) (v : α) :
    (x.set s v).get s' = if s' = s then v else x.get s' := by
  split
  · subst s'; simp
  · exact PerStrip.get_set_ne x v ‹_›

theorem PerStrip.ext_get {α : Type} {x y : PerStrip α} (h : ∀ s, x.get s = y.get s) : x = y := by
  obtain ⟨a, b⟩ := x
  obtain ⟨a', b'⟩ := y
  have h1 := h .s0
  have h2 := h .s1
  simp only [PerStrip.get] at h1 h2
  subst_vars
  rfl

/-! ### One strip -/

@[simp] theorem Strip.channel_setChannel_self (x : Strip) (ch : Chan) (v : Channel) :
    (x.setChannel ch v).channel ch = v := PerChan.get_set_self ..

theorem Strip.channel_setChannel_ne (x : Strip) {ch ch' : Chan} (v : Channel) (h : ch' ≠ ch) :
    (x.setChannel ch v).channel ch' = x.channel ch' := PerChan.get_set_ne _ _ h

theorem Strip.channel_setChannel (x : Strip) (ch ch' : Chan) (v : Channel) :
    (x.setChannel ch v).channel ch' = if ch' = ch then v else x.channel ch' := PerChan.get_set ..

@[simp] theorem Strip.lastTick_setChannel (x : Strip) (ch : Chan) (v : Channel) :
    (x.setChannel ch v).lastTick = x.lastTick := rfl

/-- Two strips with the same LAST_TICK and the same channels are the same. -/
theorem Strip.ext_channel {x y : Strip} (ht : x.lastTick = y.lastTick) (h : ∀ ch, x.channel ch = y.channel ch) :
    x = y := by
  obtain ⟨cx, tx⟩ := x
  obtain ⟨cy, ty⟩ := y
  obtain rfl : tx = ty := ht
  obtain rfl : cx = cy := PerChan.ext_get h
  rfl

@[simp] theorem Strip.channel_markSettled (x : Strip) (ch : Chan) :
    x.markSettled.channel ch = (x.channel ch).markSettled := PerChan.get_map ..

@[simp] theorem Strip.lastTick_markSettled (x : Strip) : x.markSettled.lastTick = x.lastTick := rfl

theorem Strip.allSettled_iff (x : Strip) : x.allSettled = true ↔ ∀ ch, (x.channel ch).settled = true :=
  PerChan.all_iff ..

/-! ### The state: strips -/

@[simp] theorem State.strip_setStrip_self (st : State) (s : StripId) (x : Strip) : (st.setStrip s x).strip s = x :=
  PerStrip.get_set_self ..

theorem State.strip_setStrip_ne (st : State) {s s' : StripId} (x : Strip) (h : s' ≠ s) :
    (st.setStrip s x).strip s' = st.strip s' := PerStrip.get_set_ne _ _ h

theorem State.strip_setStrip (st : State) (s s' : StripId) (x : Strip) :
    (st.setStrip s x).strip s' = if s' = s then x else st.strip s' := PerStrip.get_set ..

@[simp] theorem State.status_setStrip (st : State) (s : StripId) (x : Strip) :
    (st.setStrip s x).status = st.status := rfl
@[simp] theorem State.result_setStrip (st : State) (s : StripId) (x : Strip) :
    (st.setStrip s x).result = st.result := rfl
@[simp] theorem State.faultW0_setStrip (st : State) (s : StripId) (x : Strip) :
    (st.setStrip s x).faultW0 = st.faultW0 := rfl
@[simp] theorem State.writes_setStrip (st : State) (s : StripId) (x : Strip) :
    (st.setStrip s x).writes = st.writes := rfl
@[simp] theorem State.port_setStrip (st : State) (s : StripId) (x : Strip) :
    (st.setStrip s x).port = st.port := rfl

/-! ### The state: one channel -/

@[simp] theorem State.channel_setChannel_self (st : State) (s : StripId) (ch : Chan) (x : Channel) :
    (st.setChannel s ch x).channel s ch = x := by
  simp [State.channel, State.setChannel]

theorem State.channel_setChannel (st : State) (s s' : StripId) (ch ch' : Chan) (x : Channel) :
    (st.setChannel s ch x).channel s' ch' = if s' = s ∧ ch' = ch then x else st.channel s' ch' := by
  simp only [State.channel, State.setChannel, State.strip_setStrip]
  by_cases hs : s' = s
  · subst hs
    simp [Strip.channel_setChannel]
  · simp [hs]

theorem State.strip_setChannel_ne (st : State) {s s' : StripId} (ch : Chan) (x : Channel) (h : s' ≠ s) :
    (st.setChannel s ch x).strip s' = st.strip s' := State.strip_setStrip_ne _ _ h

@[simp] theorem State.lastTick_setChannel (st : State) (s s' : StripId) (ch : Chan) (x : Channel) :
    ((st.setChannel s ch x).strip s').lastTick = (st.strip s').lastTick := by
  simp only [State.setChannel, State.strip_setStrip]
  split
  · subst s'; rfl
  · rfl

@[simp] theorem State.status_setChannel (st : State) (s : StripId) (ch : Chan) (x : Channel) :
    (st.setChannel s ch x).status = st.status := rfl
@[simp] theorem State.result_setChannel (st : State) (s : StripId) (ch : Chan) (x : Channel) :
    (st.setChannel s ch x).result = st.result := rfl
@[simp] theorem State.faultW0_setChannel (st : State) (s : StripId) (ch : Chan) (x : Channel) :
    (st.setChannel s ch x).faultW0 = st.faultW0 := rfl
@[simp] theorem State.writes_setChannel (st : State) (s : StripId) (ch : Chan) (x : Channel) :
    (st.setChannel s ch x).writes = st.writes := rfl
@[simp] theorem State.port_setChannel (st : State) (s : StripId) (ch : Chan) (x : Channel) :
    (st.setChannel s ch x).port = st.port := rfl

/-- Two states with the same strips and outputs are the same. -/
theorem State.ext_strip {st t : State} (h : ∀ s, st.strip s = t.strip s) (hs : st.status = t.status)
    (hr : st.result = t.result) (hf : st.faultW0 = t.faultW0) (hw : st.writes = t.writes) (hp : st.port = t.port) :
    st = t := by
  obtain ⟨a, b, c, d, e, f⟩ := st
  obtain ⟨a', b', c', d', e', f'⟩ := t
  obtain rfl : a = a' := PerStrip.ext_get h
  simp only at hs hr hf hw hp
  subst_vars
  rfl

/-! ### Status and result -/

@[simp] theorem State.strip_setSettled (st : State) (s s' : StripId) (b : Bool) :
    (st.setSettled s b).strip s' = st.strip s' := by cases s <;> rfl
@[simp] theorem State.channel_setSettled (st : State) (s s' : StripId) (ch : Chan) (b : Bool) :
    (st.setSettled s b).channel s' ch = st.channel s' ch := by cases s <;> rfl
@[simp] theorem State.strips_setSettled (st : State) (s : StripId) (b : Bool) :
    (st.setSettled s b).strips = st.strips := by cases s <;> rfl
@[simp] theorem State.result_setSettled (st : State) (s : StripId) (b : Bool) :
    (st.setSettled s b).result = st.result := by cases s <;> rfl
@[simp] theorem State.faultW0_setSettled (st : State) (s : StripId) (b : Bool) :
    (st.setSettled s b).faultW0 = st.faultW0 := by cases s <;> rfl
@[simp] theorem State.writes_setSettled (st : State) (s : StripId) (b : Bool) :
    (st.setSettled s b).writes = st.writes := by cases s <;> rfl
@[simp] theorem State.port_setSettled (st : State) (s : StripId) (b : Bool) :
    (st.setSettled s b).port = st.port := by cases s <;> rfl
@[simp] theorem State.err_setSettled (st : State) (s : StripId) (b : Bool) :
    (st.setSettled s b).status.err = st.status.err := by cases s <;> rfl
@[simp] theorem State.merr_setSettled (st : State) (s : StripId) (b : Bool) :
    (st.setSettled s b).status.merr = st.status.merr := by cases s <;> rfl
@[simp] theorem State.cause_setSettled (st : State) (s : StripId) (b : Bool) :
    (st.setSettled s b).status.cause = st.status.cause := by cases s <;> rfl
@[simp] theorem State.settled_setSettled_self (st : State) (s : StripId) (b : Bool) :
    (st.setSettled s b).status.settled s = b := by cases s <;> rfl
theorem State.settled_setSettled_ne (st : State) {s s' : StripId} (b : Bool) (h : s' ≠ s) :
    (st.setSettled s b).status.settled s' = st.status.settled s' := by
  cases s <;> cases s' <;> first | rfl | exact absurd rfl h

@[simp] theorem State.strips_setResult (st : State) (v : Word) : (st.setResult v).strips = st.strips := rfl
@[simp] theorem State.status_setResult (st : State) (v : Word) : (st.setResult v).status = st.status := rfl
@[simp] theorem State.result_setResult (st : State) (v : Word) : (st.setResult v).result = v := rfl
@[simp] theorem State.faultW0_setResult (st : State) (v : Word) : (st.setResult v).faultW0 = st.faultW0 := rfl
@[simp] theorem State.writes_setResult (st : State) (v : Word) : (st.setResult v).writes = st.writes := rfl
@[simp] theorem State.port_setResult (st : State) (v : Word) : (st.setResult v).port = st.port := rfl

/-! ### Writes -/

@[simp] theorem State.strips_i2cWrite (st : State) (a : I2cAddr) (r b : Byte) :
    (st.i2cWrite a r b).strips = st.strips := rfl
@[simp] theorem State.status_i2cWrite (st : State) (a : I2cAddr) (r b : Byte) :
    (st.i2cWrite a r b).status = st.status := rfl
@[simp] theorem State.result_i2cWrite (st : State) (a : I2cAddr) (r b : Byte) :
    (st.i2cWrite a r b).result = st.result := rfl
@[simp] theorem State.faultW0_i2cWrite (st : State) (a : I2cAddr) (r b : Byte) :
    (st.i2cWrite a r b).faultW0 = st.faultW0 := rfl
@[simp] theorem State.writes_i2cWrite (st : State) (a : I2cAddr) (r b : Byte) :
    (st.i2cWrite a r b).writes = st.writes ++ [⟨a, r, b⟩] := rfl
@[simp] theorem State.port_i2cWrite (st : State) (a : I2cAddr) (r b : Byte) :
    (st.i2cWrite a r b).port = st.port := rfl

/-! ### Components -/

@[simp] theorem Fader.cur_load {w : Nat} (x : Fader w) (v : BitVec w) (cv : Curve) (ft : Word) :
    (x.load v cv ft).cur = x.cur := rfl
@[simp] theorem Fader.anc_load {w : Nat} (x : Fader w) (v : BitVec w) (cv : Curve) (ft : Word) :
    (x.load v cv ft).anc = x.anc := rfl
@[simp] theorem Fader.ts_load {w : Nat} (x : Fader w) (v : BitVec w) (cv : Curve) (ft : Word) :
    (x.load v cv ft).ts = x.ts := rfl
@[simp] theorem Fader.tgt_load {w : Nat} (x : Fader w) (v : BitVec w) (cv : Curve) (ft : Word) :
    (x.load v cv ft).tgt = v := rfl
@[simp] theorem Fader.ft_load {w : Nat} (x : Fader w) (v : BitVec w) (cv : Curve) (ft : Word) :
    (x.load v cv ft).ft = ft := rfl
@[simp] theorem Fader.cv_load {w : Nat} (x : Fader w) (v : BitVec w) (cv : Curve) (ft : Word) :
    (x.load v cv ft).cv = cv := rfl

@[simp] theorem Fader.atTarget_iff {w : Nat} (x : Fader w) : x.atTarget = true ↔ x.cur = x.tgt := beq_iff_eq

@[simp] theorem Channel.atTarget_iff (x : Channel) :
    x.atTarget = true ↔ x.color.cur = x.color.tgt ∧ x.bright.cur = x.bright.tgt := by
  simp [Channel.atTarget]

@[simp] theorem Channel.color_markSettled (x : Channel) : x.markSettled.color = x.color := rfl
@[simp] theorem Channel.bright_markSettled (x : Channel) : x.markSettled.bright = x.bright := rfl
@[simp] theorem Channel.settled_markSettled (x : Channel) : x.markSettled.settled = x.atTarget := rfl
@[simp] theorem Channel.shv_markSettled (x : Channel) : x.markSettled.shv = x.shv := rfl
@[simp] theorem Channel.shC_markSettled (x : Channel) : x.markSettled.shC = x.shC := rfl
@[simp] theorem Channel.shB_markSettled (x : Channel) : x.markSettled.shB = x.shB := rfl

/-! ### Whole states -/

/-- Two states whose channels and LAST_TICK are the same have the same strips. -/
theorem State.strips_ext {a b : State} (h : ∀ s ch, a.channel s ch = b.channel s ch)
    (ht : ∀ s, (a.strip s).lastTick = (b.strip s).lastTick) : a.strips = b.strips :=
  PerStrip.ext_get fun s => Strip.ext_channel (ht s) (h s)

@[simp] theorem channel_resetState (P : Params) (st : State) (s : StripId) (ch : Chan) :
    (resetState P st).channel s ch = Channel.reset P := by cases s <;> cases ch <;> rfl
@[simp] theorem writes_resetState (P : Params) (st : State) : (resetState P st).writes = st.writes := rfl
@[simp] theorem port_resetState (P : Params) (st : State) : (resetState P st).port = st.port := rfl

end Sys2Proof.Machine
end

