-- ==== Sys2Proof/Laws/Step.lean ====
section
/-! SUPPORT. What a step can do: the three cases of the command port, and what recording an illegal command leaves
alone. -/

namespace Sys2Proof.Machine

theorem State.takeCommand_nil {s : State} (h : s.port = []) : s.takeCommand = none := by
  simp [State.takeCommand, h]

theorem State.takeCommand_cons {s : State} {c : Command} {rest : List Command} (h : s.port = c :: rest) :
    s.takeCommand = some (c, { s with port := rest }) := by
  simp [State.takeCommand, h]

/-- `exec` always answers a next state. -/
theorem exec_next (i : Instr) (s : State) : ∃ t, exec i s = .next t := by
  cases i <;> exact ⟨_, rfl⟩

/-- All that a step can do: stay idle, execute the next command, or record it as illegal. -/
theorem step_cases {s t : State} (h : step s = .next t) :
    (s.port = [] ∧ t = s) ∨
    (∃ c rest i, s.port = c :: rest ∧ decode c = .ok i ∧ exec i { s with port := rest } = .next t) ∨
    (∃ c rest k, s.port = c :: rest ∧ decode c = .error k ∧ t = raiseIllegal k c.w0 { s with port := rest }) := by
  cases hp : s.port with
  | nil =>
    simp only [step, State.takeCommand_nil hp, Host.Outcome.next.injEq] at h
    exact .inl ⟨rfl, h.symm⟩
  | cons c rest =>
    simp only [step, State.takeCommand_cons hp] at h
    cases hd : decode c with
    | ok i =>
      rw [hd] at h
      exact .inr (.inl ⟨c, rest, i, rfl, hd, h⟩)
    | error k =>
      rw [hd] at h
      simp only [Host.Outcome.next.injEq] at h
      exact .inr (.inr ⟨c, rest, k, rfl, hd, h.symm⟩)

@[simp] theorem strips_raiseIllegal (k : Cause) (w : Word) (s : State) : (raiseIllegal k w s).strips = s.strips := by
  unfold raiseIllegal; split <;> rfl
@[simp] theorem result_raiseIllegal (k : Cause) (w : Word) (s : State) : (raiseIllegal k w s).result = s.result := by
  unfold raiseIllegal; split <;> rfl
@[simp] theorem writes_raiseIllegal (k : Cause) (w : Word) (s : State) : (raiseIllegal k w s).writes = s.writes := by
  unfold raiseIllegal; split <;> rfl
@[simp] theorem port_raiseIllegal (k : Cause) (w : Word) (s : State) : (raiseIllegal k w s).port = s.port := by
  unfold raiseIllegal; split <;> rfl
@[simp] theorem settled_raiseIllegal (k : Cause) (w : Word) (s : State) (x : StripId) :
    (raiseIllegal k w s).status.settled x = s.status.settled x := by
  unfold raiseIllegal; split <;> cases x <;> rfl

theorem raiseIllegal_first {k : Cause} {w : Word} {s : State} (h : s.status.err = false) :
    raiseIllegal k w s =
      { s with status := { s.status with err := true, cause := Cause.code k }, faultW0 := w } := by
  simp [raiseIllegal, h]

theorem raiseIllegal_again {k : Cause} {w : Word} {s : State} (h : s.status.err = true) :
    raiseIllegal k w s = { s with status := { s.status with merr := true } } := by
  simp [raiseIllegal, h]

/-- The cause codes run from 1 to 4 (R211). -/
theorem Cause.code_range (k : Cause) : 1 ≤ (Cause.code k).toNat ∧ (Cause.code k).toNat ≤ 4 := by
  cases k <;> decide

end Sys2Proof.Machine
end

