-- ==== Sys2Proof/Laws/Asm.lean ====
section
/-! SUPPORT. The assembler's operands, and running a list of instructions piece by piece. -/

namespace Sys2Proof.Machine

theorem asmField_of_lt {w n : Nat} (h : n < 2 ^ w) : asmField w n = some (BitVec.ofNat w n) := by simp [asmField, h]

theorem asmField_of_not_lt {w n : Nat} (h : ¬ n < 2 ^ w) : asmField w n = none := by simp [asmField, h]

theorem asmStrip_of_lt {n : Nat} (h : n < 2) : ∃ s, asmStrip n = some s ∧ s.code.toNat = n := by
  interval_cases n <;> decide

theorem asmStrip_of_not_lt {n : Nat} (h : ¬ n < 2) : asmStrip n = none := by
  simp [asmStrip, asmField_of_not_lt (w := 1) (n := n) (by omega)]

theorem asmChan_of_lt {n : Nat} (h : n < 5) : ∃ ch, asmChan n = some ch ∧ ch.code.toNat = n := by
  interval_cases n <;> decide

theorem asmChan_of_not_lt {n : Nat} (h : ¬ n < 5) : asmChan n = none := by
  by_cases h8 : n < 8
  · interval_cases n <;> first | omega | decide
  · simp [asmChan, asmField_of_not_lt (w := 3) (n := n) (by omega)]

theorem asmCurve_of_lt {n : Nat} (h : n < 5) : ∃ cv, asmCurve n = some cv ∧ cv.code.toNat = n := by
  interval_cases n <;> decide

theorem asmCurve_of_not_lt {n : Nat} (h : ¬ n < 5) : asmCurve n = none := by
  by_cases h8 : n < 8
  · interval_cases n <;> first | omega | decide
  · simp [asmCurve, asmField_of_not_lt (w := 3) (n := n) (by omega)]

/-- W0 from the sum of its fields at their places. -/
theorem packW0_eq_ofNat (op : Opcode) (s : BitVec 1) (ch cv : BitVec 3) (v : BitVec 12) :
    packW0 op s ch cv v = BitVec.ofNat 32
      (op.code.toNat * 2 ^ 28 + s.toNat * 2 ^ 23 + ch.toNat * 2 ^ 20 + cv.toNat * 2 ^ 16 + v.toNat) := by
  rw [← packW0_toNat]
  simp

/-! ### Running instructions -/

theorem runInstrs_append {a b : List Instr} {st t : State} (h : Safety.runInstrs a st = some t) :
    Safety.runInstrs (a ++ b) st = Safety.runInstrs b t := by
  induction a generalizing st with
  | nil =>
    cases h
    rfl
  | cons i l ih =>
    obtain ⟨u, hu⟩ := exec_next i st
    simp only [Safety.runInstrs, hu] at h
    simp only [List.cons_append, Safety.runInstrs, hu, ih h]

/-- A channel with a black target, its curve and its fade time staged for both components. -/
def loadedBlack (cv : Curve) (ft : Word) (x : Channel) : Channel :=
  { x with color := x.color.load 0 cv ft, bright := x.bright.load 0 cv ft }

/-- The two loads LDBLACK makes of one channel. -/
theorem runInstrs_ldch_black (s : StripId) (ch : Chan) (cv : Curve) (ft : Word) (st : State) :
    ∃ t, Safety.runInstrs (expandLdch s ch 0 cv ft 0 cv ft) st = some t ∧
      (∀ s' ch', t.channel s' ch' =
        if s' = s ∧ ch' = ch then loadedBlack cv ft (st.channel s ch) else st.channel s' ch') ∧
      (∀ s', (t.strip s').lastTick = (st.strip s').lastTick) ∧
      t.status = st.status ∧ t.result = st.result ∧ t.faultW0 = st.faultW0 ∧ t.writes = st.writes ∧
      t.port = st.port := by
  refine ⟨_, rfl, ?_⟩
  simp [State.channel_setChannel]
  intro s' ch'
  split <;> rfl

end Sys2Proof.Machine
end

