-- ==== Sys2Proof/Laws/Curve.lean ====
section
/-! SUPPORT. The fractions of the curve unit as rational numbers: every operation computes the operation it is named
after, so that the curve can be reasoned about in Q. -/

namespace Sys2Proof.Machine

/-- The value of a fraction. -/
def Frac.toRat (x : Frac) : ℚ := (x.num : ℚ) / x.den

theorem Frac.den_ne_zero (x : Frac) : (x.den : ℚ) ≠ 0 := by
  have := x.den_pos
  positivity

@[simp] theorem Frac.toRat_ofInt (n : Int) : (Frac.ofInt n).toRat = n := by simp [Frac.toRat, Frac.ofInt]

@[simp] theorem Frac.toRat_add (x y : Frac) : (x.add y).toRat = x.toRat + y.toRat := by
  have hx := x.den_ne_zero
  have hy := y.den_ne_zero
  simp only [Frac.toRat, Frac.add]
  push_cast
  field_simp

@[simp] theorem Frac.toRat_sub (x y : Frac) : (x.sub y).toRat = x.toRat - y.toRat := by
  have hx := x.den_ne_zero
  have hy := y.den_ne_zero
  simp only [Frac.toRat, Frac.sub]
  push_cast
  field_simp

@[simp] theorem Frac.toRat_mul (x y : Frac) : (x.mul y).toRat = x.toRat * y.toRat := by
  have hx := x.den_ne_zero
  have hy := y.den_ne_zero
  simp only [Frac.toRat, Frac.mul]
  push_cast
  field_simp

@[simp] theorem Frac.toRat_pow4 (x : Frac) : x.pow4.toRat = x.toRat ^ 4 := by
  simp only [Frac.pow4, Frac.toRat_mul]
  ring

@[simp] theorem Frac.toRat_half (x : Frac) : x.half.toRat = x.toRat / 2 := by
  have hx := x.den_ne_zero
  simp only [Frac.toRat, Frac.half]
  push_cast
  field_simp

@[simp] theorem Frac.toRat_ratio (n d : Nat) (h : 0 < d) : (Frac.ratio n d h).toRat = (n : ℚ) / d := by
  simp [Frac.toRat, Frac.ratio]

theorem Frac.lt_iff (x y : Frac) : x.lt y = true ↔ x.toRat < y.toRat := by
  have hx : (0 : ℚ) < x.den := by exact_mod_cast x.den_pos
  have hy : (0 : ℚ) < y.den := by exact_mod_cast y.den_pos
  rw [Frac.lt, decide_eq_true_iff, Frac.toRat, Frac.toRat, div_lt_div_iff₀ hx hy]
  exact_mod_cast Iff.rfl

@[simp] theorem Frac.toRat_least (x y : Frac) : (x.least y).toRat = min x.toRat y.toRat := by
  unfold Frac.least
  split
  · exact (min_eq_left ((Frac.lt_iff x y).1 ‹_›).le).symm
  · exact (min_eq_right (not_lt.1 fun h => ‹¬_› ((Frac.lt_iff x y).2 h))).symm

@[simp] theorem Frac.toRat_greatest (x y : Frac) : (x.greatest y).toRat = max x.toRat y.toRat := by
  unfold Frac.greatest
  split
  · exact (max_eq_right ((Frac.lt_iff x y).1 ‹_›).le).symm
  · exact (max_eq_left (not_lt.1 fun h => ‹¬_› ((Frac.lt_iff x y).2 h))).symm

@[simp] theorem Frac.toRat_clampPercent (p : Frac) : (clampPercent p).toRat = min (max p.toRat 0) 1 := by
  simp [clampPercent]

/-- The exact weight is the rational one (R102 to R105). -/
theorem toRat_weight_exact (cv : Curve) (p : Frac) :
    (weight .exact cv p).toRat = Safety.weightQ cv p.toRat := by
  cases cv with
  | none => simp [weight, Safety.weightQ]
  | linear => rfl
  | easeIn => simp [weight, roundArith, Safety.weightQ]
  | easeOut => simp [weight, roundArith, Safety.weightQ]
  | easeInOut =>
    have hlt := Frac.lt_iff p (Frac.half (Frac.ofInt 1))
    rw [Frac.toRat_half, Frac.toRat_ofInt, Int.cast_one] at hlt
    simp only [weight, roundArith, Safety.weightQ]
    by_cases h : p.toRat < 1 / 2
    · rw [if_pos (hlt.2 h), if_pos h]
      simp
    · rw [if_neg fun hl => h (hlt.1 hl), if_neg h]
      simp
      ring

/-- The exact value before conversion (R107). -/
theorem toRat_curveValue_exact (cv : Curve) (p : Frac) (a b : Nat) :
    (curveValue .exact cv p a b).toRat = (a : ℚ) + ((b : ℚ) - a) * Safety.weightQ cv p.toRat := by
  simp [curveValue, roundArith, toRat_weight_exact]

/-- The elapsed time of a fade step, as a number (R145). -/
theorem toNat_elapsedMs (now ts : Word) : (elapsedMs now ts).toNat = Safety.elapsedQ now ts := by
  simp only [elapsedMs, Safety.elapsedQ, BitVec.toNat_sub]
  congr 1
  have := ts.isLt
  omega

/-- The exact ratio `e / ft` (R111). -/
theorem toRat_elapsedRatio_exact (e ft : Word) :
    (elapsedRatio .exact e ft).toRat = Safety.ratioQ e.toNat ft.toNat := by
  unfold elapsedRatio Safety.ratioQ
  split
  · rename_i h
    rw [if_neg h.ne']
    simp [roundArith]
  · rename_i h
    rw [if_pos (Nat.eq_zero_of_not_pos h)]
    simp

/-- The normative curve is the rational one, cut at 0. -/
theorem curve_exact_floor (P : Params) (h1 : P.curveArith = .exact) (h2 : P.curveToInt = .floor) (cv : Curve)
    (p : Frac) (a b : Nat) : curve P cv p a b = (Safety.curveQ cv p.toRat a b).toNat := by
  cases cv with
  | none => simp [curve, Safety.curveQ]
  | _ =>
    simp only [curve, Safety.curveQ, h1, h2, toInt, Frac.floor]
    congr 1
    rw [← Frac.toRat_clampPercent, ← toRat_curveValue_exact, Frac.toRat, Int.floor_div_natCast]
    simp

/-- The percent of a fade, as a rational number (R140). -/
theorem toRat_fadePercent_exact (now ts ft : Word) :
    (fadePercent .exact (elapsedMs now ts) ft).toRat = Safety.percentQ now ts ft := by
  simp [fadePercent, Safety.percentQ, toRat_elapsedRatio_exact, toNat_elapsedMs]

theorem elapsedQ_self (now : Word) : Safety.elapsedQ now now = 0 := by simp [Safety.elapsedQ]

/-- The percent of a fade whose time is over is 1. -/
theorem percentQ_of_le_elapsed {now ts ft : Word} (h : ft.toNat ≤ Safety.elapsedQ now ts) :
    Safety.percentQ now ts ft = 1 := by
  apply min_eq_left
  unfold Safety.ratioQ
  split
  · exact le_rfl
  · rw [one_le_div₀ (by positivity)]
    exact_mod_cast h

/-- The percent of a fade whose time is not over is `e / ft`. -/
theorem percentQ_of_elapsed_lt {now ts ft : Word} (h : Safety.elapsedQ now ts < ft.toNat) :
    Safety.percentQ now ts ft = (Safety.elapsedQ now ts : ℚ) / ft.toNat := by
  have hf : (0 : ℚ) < ft.toNat := by exact_mod_cast Nat.zero_lt_of_lt h
  unfold Safety.percentQ Safety.ratioQ
  rw [if_neg (Nat.ne_of_gt (Nat.zero_lt_of_lt h))]
  apply min_eq_right
  rw [div_le_one hf]
  exact_mod_cast h.le

/-- Every weight rises with the percent. -/
theorem weightQ_mono (cv : Curve) {p q : ℚ} (h0 : 0 ≤ p) (hpq : p ≤ q) (h1 : q ≤ 1) :
    Safety.weightQ cv p ≤ Safety.weightQ cv q := by
  cases cv <;> simp only [Safety.weightQ]
  · norm_num
  · exact hpq
  · gcongr
  · have : (1 - q) ^ 4 ≤ (1 - p) ^ 4 := by gcongr
    linarith
  · split <;> split
    · gcongr
    · have h : p ^ 4 ≤ (1 / 2) ^ 4 := by gcongr
      have h' : (2 - 2 * q) ^ 4 ≤ 1 := pow_le_one₀ (by linarith) (by linarith)
      norm_num at h
      linarith
    · linarith
    · have : (2 - 2 * q) ^ 4 ≤ (2 - 2 * p) ^ 4 := by
        gcongr
        linarith
      linarith

/-- A time d ms before the timestamp has the elapsed time 2^32 - d (R145). -/
theorem elapsedQ_sub {d : Nat} (ts : Word) (h1 : 1 ≤ d) (h2 : d < 2 ^ 32) :
    Safety.elapsedQ (ts - BitVec.ofNat 32 d) ts = 2 ^ 32 - d := by
  have := ts.isLt
  simp only [Safety.elapsedQ, BitVec.toNat_sub, BitVec.toNat_ofNat]
  omega

/-- A time e ms after the timestamp, modulo 2^32, has the elapsed time e (R145). -/
theorem elapsedQ_add {e : Nat} (ts : Word) (h : e < 2 ^ 32) : Safety.elapsedQ (ts + BitVec.ofNat 32 e) ts = e := by
  have := ts.isLt
  simp only [Safety.elapsedQ, BitVec.toNat_add, BitVec.toNat_ofNat]
  omega

end Sys2Proof.Machine
end

