-- ==== Sys2Proof/Laws/Fade.lean ====
section
/-! SUPPORT. The fade pass channel by channel: what a pass over a strip leaves in each channel, without its loop. -/

namespace Sys2Proof.Machine

/-- A channel with both components stepped. -/
def Channel.stepBoth (P : Params) (t : FadeTiming) (now : Word) (x : Channel) : Channel :=
  { x with color := x.color.stepTimed P t now, bright := x.bright.stepTimed P t now }

theorem Channel.stepComp_color_bright (P : Params) (t : FadeTiming) (now : Word) (x : Channel) :
    (x.stepComp P t now .color).stepComp P t now .bright = x.stepBoth P t now := rfl

theorem Strip.channel_stepComp (P : Params) (t : FadeTiming) (now : Word) (x : Strip) (a : Chan × Comp) (ch : Chan) :
    (Strip.stepComp P t now x a).channel ch =
      if ch = a.1 then (x.channel ch).stepComp P t now a.2 else x.channel ch := by
  simp only [Strip.stepComp, Strip.channel_setChannel]
  split
  · subst ch; rfl
  · rfl

@[simp] theorem Strip.lastTick_stepComp (P : Params) (t : FadeTiming) (now : Word) (x : Strip) (a : Chan × Comp) :
    (Strip.stepComp P t now x a).lastTick = x.lastTick := rfl

theorem Strip.lastTick_steps (P : Params) (t : FadeTiming) (now : Word) (order : List (Chan × Comp)) (x : Strip) :
    (Strip.steps P t now order x).lastTick = x.lastTick := by
  induction order generalizing x with
  | nil => rfl
  | cons a l ih => exact (ih _).trans rfl

/-- The pass in R135's order steps both components of every channel once. -/
theorem Strip.channel_steps_passOrder (P : Params) (t : FadeTiming) (now : Word) (x : Strip) (ch : Chan) :
    (Strip.steps P t now passOrder x).channel ch = (x.channel ch).stepBoth P t now := by
  cases ch <;> rfl

theorem Strip.channel_gapRule (now tick : Word) (x : Strip) (ch : Chan) :
    (x.gapRule now tick).channel ch =
      if isGap x.lastTick tick then (x.channel ch).restart now else x.channel ch := by
  unfold Strip.gapRule Strip.channel
  dsimp only
  split <;> simp

/-- A channel after a whole pass. -/
theorem Strip.channel_fadePass (P : Params) (t : FadeTiming) (now tick : Word) (x : Strip) (ch : Chan) :
    (x.fadePass P t now tick).channel ch =
      ((if isGap x.lastTick tick then (x.channel ch).restart now else x.channel ch).stepBoth P t now).markSettled := by
  simp only [Strip.fadePass, Strip.channel_markSettled, Strip.channel_steps_passOrder, Strip.channel_gapRule]

theorem Strip.lastTick_fadePass (P : Params) (t : FadeTiming) (now tick : Word) (x : Strip) :
    (x.fadePass P t now tick).lastTick = tick := by
  simp only [Strip.fadePass, Strip.lastTick_markSettled, Strip.lastTick_steps]
  rfl

/-- A channel of the state after `fadeStrip`. -/
theorem channel_fadeStrip (P : Params) (t : FadeTiming) (s s' : StripId) (now tick : Word) (st : State) (ch : Chan) :
    (fadeStrip P t s now tick st).channel s' ch =
      if s' = s then ((st.strip s).fadePass P t now tick).channel ch else st.channel s' ch := by
  simp only [fadeStrip, State.channel_setSettled]
  simp only [State.channel, State.strip_setStrip]
  split <;> rfl

theorem strip_fadeStrip_self (P : Params) (t : FadeTiming) (s : StripId) (now tick : Word) (st : State) :
    (fadeStrip P t s now tick st).strip s = (st.strip s).fadePass P t now tick := by
  simp [fadeStrip]

theorem strip_fadeStrip_ne (P : Params) (t : FadeTiming) {s s' : StripId} (now tick : Word) (st : State)
    (h : s' ≠ s) : (fadeStrip P t s now tick st).strip s' = st.strip s' := by
  simp [fadeStrip, State.strip_setStrip, h]

@[simp] theorem result_fadeStrip (P : Params) (t : FadeTiming) (s : StripId) (now tick : Word) (st : State) :
    (fadeStrip P t s now tick st).result = st.result := by simp [fadeStrip]
@[simp] theorem faultW0_fadeStrip (P : Params) (t : FadeTiming) (s : StripId) (now tick : Word) (st : State) :
    (fadeStrip P t s now tick st).faultW0 = st.faultW0 := by simp [fadeStrip]
@[simp] theorem writes_fadeStrip (P : Params) (t : FadeTiming) (s : StripId) (now tick : Word) (st : State) :
    (fadeStrip P t s now tick st).writes = st.writes := by simp [fadeStrip]
@[simp] theorem port_fadeStrip (P : Params) (t : FadeTiming) (s : StripId) (now tick : Word) (st : State) :
    (fadeStrip P t s now tick st).port = st.port := by simp [fadeStrip]
@[simp] theorem err_fadeStrip (P : Params) (t : FadeTiming) (s : StripId) (now tick : Word) (st : State) :
    (fadeStrip P t s now tick st).status.err = st.status.err := by simp [fadeStrip]
@[simp] theorem merr_fadeStrip (P : Params) (t : FadeTiming) (s : StripId) (now tick : Word) (st : State) :
    (fadeStrip P t s now tick st).status.merr = st.status.merr := by simp [fadeStrip]
@[simp] theorem cause_fadeStrip (P : Params) (t : FadeTiming) (s : StripId) (now tick : Word) (st : State) :
    (fadeStrip P t s now tick st).status.cause = st.status.cause := by simp [fadeStrip]
theorem settled_fadeStrip_self (P : Params) (t : FadeTiming) (s : StripId) (now tick : Word) (st : State) :
    (fadeStrip P t s now tick st).status.settled s = ((st.strip s).fadePass P t now tick).allSettled := by
  simp [fadeStrip]
theorem settled_fadeStrip_ne (P : Params) (t : FadeTiming) {s s' : StripId} (now tick : Word) (st : State)
    (h : s' ≠ s) : (fadeStrip P t s now tick st).status.settled s' = st.status.settled s' := by
  simp [fadeStrip, State.settled_setSettled_ne _ _ h]

/-! ### One step -/

/-- A step leaves the staging registers alone. -/
@[simp] theorem Fader.tgt_step {w : Nat} (P : Params) (now ft : Word) (cv : Curve) (x : Fader w) :
    (x.step P now ft cv).tgt = x.tgt := by unfold Fader.step; split <;> rfl
@[simp] theorem Fader.ft_step {w : Nat} (P : Params) (now ft : Word) (cv : Curve) (x : Fader w) :
    (x.step P now ft cv).ft = x.ft := by unfold Fader.step; split <;> rfl
@[simp] theorem Fader.cv_step {w : Nat} (P : Params) (now ft : Word) (cv : Curve) (x : Fader w) :
    (x.step P now ft cv).cv = x.cv := by unfold Fader.step; split <;> rfl

theorem Fader.step_atTarget {w : Nat} (P : Params) (now ft : Word) (cv : Curve) {x : Fader w} (h : x.cur = x.tgt) :
    x.step P now ft cv = { x with ts := now, anc := if P.anchorAtTarget then x.tgt else x.anc } := by
  simp [Fader.step, h]

theorem Fader.step_moving {w : Nat} (P : Params) (now ft : Word) (cv : Curve) {x : Fader w} (h : x.cur ≠ x.tgt) :
    x.step P now ft cv =
      { x with cur := fadeValue P now ft cv x,
               anc := if fadeValue P now ft cv x = x.tgt then x.tgt else x.anc } := by
  simp [Fader.step, h]

@[simp] theorem isGap_iff (last tick : Word) : isGap last tick = true ↔ tick ≠ last + 1 := bne_iff_ne

/-- A gap, as numbers (R136). -/
theorem isGap_iff_toNat (last tick : Word) :
    isGap last tick = true ↔ tick.toNat ≠ (last.toNat + 1) % 2 ^ 32 := by
  rw [isGap_iff, ne_eq, ne_eq, not_iff_not, ← BitVec.toNat_inj]
  simp [BitVec.toNat_add]

/-- Two component steps of a strip commute. -/
theorem Strip.stepComp_comm (P : Params) (t : FadeTiming) (now : Word) (x : Strip) (a b : Chan × Comp) :
    Strip.stepComp P t now (Strip.stepComp P t now x a) b = Strip.stepComp P t now (Strip.stepComp P t now x b) a := by
  refine Strip.ext_channel (x := Strip.stepComp P t now (Strip.stepComp P t now x a) b)
    (y := Strip.stepComp P t now (Strip.stepComp P t now x b) a) rfl ?_
  intro ch
  simp only [Strip.channel_stepComp]
  obtain ⟨a1, a2⟩ := a
  obtain ⟨b1, b2⟩ := b
  dsimp only
  split <;> split <;> first | rfl | (cases a2 <;> cases b2 <;> rfl)

end Sys2Proof.Machine
end

