-- ==== Sys2Proof/Laws/PerInstr.lean ====
section
/-! SUPPORT. A family of lemmas with one per instruction: the words of every instruction are well formed by the rows of
the opcode table, that is, some row accepts them (spec/30_encoding.md R80). -/

namespace Sys2Proof.Laws.EncodeWellFormed

/-- The words of the instruction are accepted by a row of the opcode table. -/
def Statement (i : Instr) : Prop := (encode i).wellFormed = true

/-- A command that one row accepts is well formed. -/
theorem of_row {c : Command} (r : TableRow) (hr : r ∈ opcodeTable) (h : r.accepts c = true) : c.wellFormed = true :=
  List.any_eq_true.2 ⟨r, hr, h⟩

theorem nop : Statement .nop := by
  refine of_row opcodeTable[0] (by decide) (by decide)

theorem ldcol (s : StripId) (ch : Chan) (cv : Curve) (color : Color) (ft : Word) : Statement (.ldcol s ch cv color ft) := by
  refine of_row opcodeTable[1] (by decide) ?_
  simp [opcodeTable, TableRow.accepts, TableRow.fixedBits, TableRow.zeroWords, TableRow.chanOk,
    TableRow.curveOk, encode, packW0_and, packW0_chan, packW0_curve, color_and_high12, Chan.code_lt,
    Curve.code_lt, Opcode.code]

theorem ldbri (s : StripId) (ch : Chan) (cv : Curve) (bright : Bright) (ft : Word) : Statement (.ldbri s ch cv bright ft) := by
  refine of_row opcodeTable[2] (by decide) ?_
  simp [opcodeTable, TableRow.accepts, TableRow.fixedBits, TableRow.zeroWords, TableRow.chanOk,
    TableRow.curveOk, encode, packW0_and, packW0_chan, packW0_curve, Chan.code_lt, Curve.code_lt, Opcode.code]

theorem fade (s : StripId) (now tick : Word) : Statement (.fade s now tick) := by
  refine of_row opcodeTable[3] (by decide) ?_
  simp [opcodeTable, TableRow.accepts, TableRow.fixedBits, TableRow.zeroWords, TableRow.chanOk,
    TableRow.curveOk, encode, packW0_and, Opcode.code]

theorem setc (s : StripId) (now tick : Word) : Statement (.setc s now tick) := by
  refine of_row opcodeTable[4] (by decide) ?_
  simp [opcodeTable, TableRow.accepts, TableRow.fixedBits, TableRow.zeroWords, TableRow.chanOk,
    TableRow.curveOk, encode, packW0_and, Opcode.code]

theorem upd (s : StripId) : Statement (.upd s) := by
  refine of_row opcodeTable[5] (by decide) ?_
  simp [opcodeTable, TableRow.accepts, TableRow.fixedBits, TableRow.zeroWords, TableRow.chanOk,
    TableRow.curveOk, encode, packW0_and, Opcode.code]

theorem eval (cv : Curve) (start stop : Bright) (elapsed ft : Word) : Statement (.eval cv start stop elapsed ft) := by
  refine of_row opcodeTable[6] (by decide) ?_
  simp [opcodeTable, TableRow.accepts, TableRow.fixedBits, TableRow.zeroWords, TableRow.chanOk,
    TableRow.curveOk, encode, packW0_and, packW0_curve, bright_and_high32, Curve.code_lt, Opcode.code]

theorem duty (color : Color) (bright : Bright) : Statement (.duty color bright) := by
  refine of_row opcodeTable[7] (by decide) ?_
  simp [opcodeTable, TableRow.accepts, TableRow.fixedBits, TableRow.zeroWords, TableRow.chanOk,
    TableRow.curveOk, encode, packW0_and, color_and_high32, Opcode.code]

theorem rst : Statement .rst := by
  refine of_row opcodeTable[8] (by decide) (by decide)

end Sys2Proof.Laws.EncodeWellFormed
end

