-- ==== Sys2Proof/Laws/Pwm.lean ====
section
/-! SUPPORT. The PWM writer: what one channel's turn in UPD does, and what UPD leaves alone. -/

namespace Sys2Proof.Machine

@[simp] theorem strips_writeCounts (P : Params) (s : StripId) (ch : Chan) (on off : Count) (st : State) :
    (writeCounts P s ch on off st).strips = st.strips := rfl
@[simp] theorem status_writeCounts (P : Params) (s : StripId) (ch : Chan) (on off : Count) (st : State) :
    (writeCounts P s ch on off st).status = st.status := rfl
@[simp] theorem result_writeCounts (P : Params) (s : StripId) (ch : Chan) (on off : Count) (st : State) :
    (writeCounts P s ch on off st).result = st.result := rfl
@[simp] theorem faultW0_writeCounts (P : Params) (s : StripId) (ch : Chan) (on off : Count) (st : State) :
    (writeCounts P s ch on off st).faultW0 = st.faultW0 := rfl
@[simp] theorem port_writeCounts (P : Params) (s : StripId) (ch : Chan) (on off : Count) (st : State) :
    (writeCounts P s ch on off st).port = st.port := rfl

/-- The four events of a channel write, in R184's order. -/
def countEvents (P : Params) (s : StripId) (ch : Chan) (on off : Count) : List BusWrite :=
  [⟨P.pwmI2cAddr, regBase P s ch, on.extractLsb' 0 8⟩,
   ⟨P.pwmI2cAddr, regBase P s ch + 1, (on.extractLsb' 8 4).setWidth 8⟩,
   ⟨P.pwmI2cAddr, regBase P s ch + 2, off.extractLsb' 0 8⟩,
   ⟨P.pwmI2cAddr, regBase P s ch + 2 + 1, (off.extractLsb' 8 4).setWidth 8⟩]

theorem writes_writeCounts (P : Params) (s : StripId) (ch : Chan) (on off : Count) (st : State) :
    (writeCounts P s ch on off st).writes = st.writes ++ countEvents P s ch on off := by
  simp [writeCounts, State.writeCount, countEvents]

/-- The events one channel's turn in UPD emits. -/
def updEvents (P : Params) (s : StripId) (ch : Chan) (x : Channel) : List BusWrite :=
  if x.changed then countEvents P s ch (onCount ch) (offCount ch (duty x.color.cur x.bright.cur)) else []

theorem writes_updChannel (P : Params) (s : StripId) (st : State) (ch : Chan) :
    (updChannel P s st ch).writes = st.writes ++ updEvents P s ch (st.channel s ch) := by
  unfold updChannel updEvents
  dsimp only
  split <;> simp [writes_writeCounts]

theorem channel_updChannel (P : Params) (s s' : StripId) (st : State) (ch ch' : Chan) :
    (updChannel P s st ch).channel s' ch' =
      if s' = s ∧ ch' = ch ∧ (st.channel s ch).changed then (st.channel s ch).markWritten
      else st.channel s' ch' := by
  unfold updChannel
  dsimp only
  split
  · rename_i h
    rw [State.channel_setChannel]
    simp only [h, and_true]
    rfl
  · rename_i h
    simp [h]

theorem Channel.not_changed_iff (x : Channel) :
    x.changed = false ↔ x.shv = true ∧ x.shC = x.color.cur ∧ x.shB = x.bright.cur := by
  simp [Channel.changed, and_assoc]

/-- A channel that is not changed already has its pair in the shadow. -/
theorem Channel.markWritten_of_not_changed {x : Channel} (h : x.changed = false) : x.markWritten = x := by
  obtain ⟨hv, hc, hb⟩ := x.not_changed_iff.1 h
  obtain ⟨c, b, st, v, sc, sb⟩ := x
  simp only at hv hc hb
  subst hv hc hb
  rfl

/-- One channel's turn leaves its pair in the shadow, whether it wrote or not. -/
theorem channel_updChannel_eq (P : Params) (s s' : StripId) (st : State) (ch ch' : Chan) :
    (updChannel P s st ch).channel s' ch' =
      if s' = s ∧ ch' = ch then (st.channel s ch).markWritten else st.channel s' ch' := by
  rw [channel_updChannel]
  by_cases hx : s' = s ∧ ch' = ch
  · obtain ⟨rfl, rfl⟩ := hx
    cases hc : (st.channel s' ch').changed
    · simp [Channel.markWritten_of_not_changed hc]
    · simp
  · rw [if_neg hx, if_neg fun h => hx ⟨h.1, h.2.1⟩]

theorem lastTick_updChannel (P : Params) (s s' : StripId) (st : State) (ch : Chan) :
    ((updChannel P s st ch).strip s').lastTick = (st.strip s').lastTick := by
  unfold updChannel
  dsimp only
  split
  · rw [State.lastTick_setChannel]; rfl
  · rfl

@[simp] theorem status_updChannel (P : Params) (s : StripId) (st : State) (ch : Chan) :
    (updChannel P s st ch).status = st.status := by unfold updChannel; dsimp only; split <;> rfl
@[simp] theorem result_updChannel (P : Params) (s : StripId) (st : State) (ch : Chan) :
    (updChannel P s st ch).result = st.result := by unfold updChannel; dsimp only; split <;> rfl
@[simp] theorem faultW0_updChannel (P : Params) (s : StripId) (st : State) (ch : Chan) :
    (updChannel P s st ch).faultW0 = st.faultW0 := by unfold updChannel; dsimp only; split <;> rfl
@[simp] theorem port_updChannel (P : Params) (s : StripId) (st : State) (ch : Chan) :
    (updChannel P s st ch).port = st.port := by unfold updChannel; dsimp only; split <;> rfl

/-! ### The whole strip -/

@[simp] theorem status_updStrip (P : Params) (s : StripId) (st : State) : (updStrip P s st).status = st.status := by
  simp [updStrip, allChans]
@[simp] theorem result_updStrip (P : Params) (s : StripId) (st : State) : (updStrip P s st).result = st.result := by
  simp [updStrip, allChans]
@[simp] theorem faultW0_updStrip (P : Params) (s : StripId) (st : State) :
    (updStrip P s st).faultW0 = st.faultW0 := by simp [updStrip, allChans]
@[simp] theorem port_updStrip (P : Params) (s : StripId) (st : State) : (updStrip P s st).port = st.port := by
  simp [updStrip, allChans]
theorem lastTick_updStrip (P : Params) (s s' : StripId) (st : State) :
    ((updStrip P s st).strip s').lastTick = (st.strip s').lastTick := by
  simp [updStrip, allChans, lastTick_updChannel]

/-- Every channel of the strip has its pair in the shadow after UPD; the other strip's channels are unchanged. -/
theorem channel_updStrip (P : Params) (s s' : StripId) (st : State) (ch : Chan) :
    (updStrip P s st).channel s' ch = if s' = s then (st.channel s ch).markWritten else st.channel s' ch := by
  by_cases hs : s' = s
  · subst hs
    cases ch <;> simp [updStrip, allChans, channel_updChannel_eq]
  · simp [updStrip, allChans, channel_updChannel_eq, hs]

/-- What UPD appends to the write history. -/
theorem writes_updStrip (P : Params) (s : StripId) (st : State) :
    (updStrip P s st).writes = st.writes ++ allChans.flatMap fun ch => updEvents P s ch (st.channel s ch) := by
  simp [updStrip, allChans, writes_updChannel, channel_updChannel_eq]

/-! ### The duty and the bytes -/

/-- A duty fits 12 bits (R170). -/
theorem duty_lt (c : Color) (b : Bright) : duty c b < 4096 := by
  unfold duty
  split
  · decide
  · exact Nat.lt_succ_of_le (Nat.min_le_left _ _)

/-- The four events of a channel write, as numbers. -/
theorem countEvents_eq (P : Params) (s : StripId) (ch : Chan) (d : Nat) :
    countEvents P s ch (onCount ch) (offCount ch d) = Safety.channelEvents P s ch d := by
  have hp : (phase ch).toNat = Safety.phaseN ch := by cases ch <;> rfl
  unfold countEvents Safety.channelEvents regBase
  simp only [List.cons.injEq, BusWrite.mk.injEq, true_and, and_true]
  refine ⟨?_, ⟨?_, ?_⟩, ⟨?_, ?_⟩, ?_, ?_⟩
  · cases ch <;> rfl
  · apply BitVec.eq_of_toNat_eq
    simp [BitVec.toNat_add]
  · cases ch <;> rfl
  · apply BitVec.eq_of_toNat_eq
    simp [BitVec.toNat_add]
  · apply BitVec.eq_of_toNat_eq
    simp [offCount, hp, BitVec.extractLsb'_toNat]
  · apply BitVec.eq_of_toNat_eq
    simp [BitVec.toNat_add]
  · apply BitVec.eq_of_toNat_eq
    simp [offCount, hp, BitVec.extractLsb'_toNat, Nat.shiftRight_eq_div_pow]
    omega

/-- What one channel's turn in UPD emits, as numbers. -/
theorem updEvents_eq (P : Params) (s : StripId) (ch : Chan) (x : Channel) :
    updEvents P s ch x =
      if x.changed then Safety.channelEvents P s ch (duty x.color.cur x.bright.cur) else [] := by
  unfold updEvents
  rw [countEvents_eq]

/-- The duty of a non-zero pair (R170). -/
theorem duty_of_ne_zero {c : Color} {b : Bright} (hc : c ≠ 0) (hb : b ≠ 0) :
    duty c b = min 4095 ((2 * ((c.toNat + 1) * 16 * b.toNat) + 4095) / 8190) := by
  unfold duty
  rw [if_neg (not_or.2 ⟨hc, hb⟩)]

end Sys2Proof.Machine
end

