-- ==== Sys2Proof/Tests/Slice0.lean ====
section
/-! SUPPORT. Small tests of the model. Every expected value is the spec's own (95_test_vectors.md, 30_encoding.md R85,
60_exceptions.md R213 to R217) or computed by hand from a rule; and for every obligation with hypotheses a concrete
state and operands that meet them. -/

open Sys2Proof Sys2Proof.Machine Sys2Proof.Safety

namespace Sys2Proof.Tests

/-! ### Helpers -/

/-- The test configuration of 20_memory.md R61. -/
def testParams : Params where
  pwmI2cAddr := 0x40
  regBase
    | .s0, .red => 6
    | .s0, .green => 10
    | .s0, .blue => 14
    | .s0, .coldWhite => 18
    | .s0, .warmWhite => 22
    | .s1, .red => 26
    | .s1, .green => 30
    | .s1, .blue => 34
    | .s1, .coldWhite => 38
    | .s1, .warmWhite => 42

/-- The reset state with one channel's components replaced. -/
def withChannel (s : StripId) (ch : Chan) (c : Fader 8) (b : Fader 12) : State :=
  State.reset.setChannel s ch { State.reset.channel s ch with color := c, bright := b }

/-- The reset state with the color of channel R of strip 0 given as (cur, anc, ts, tgt, ft, cv). -/
def withRed (cur anc : Color) (ts : Word) (tgt : Color) (ft : Word) (cv : Curve) : State :=
  withChannel .s0 .red ⟨cur, anc, ts, tgt, ft, cv⟩ (Fader.reset 12)

/-- The reset state with the brightness of channel R of strip 0 given as (cur, anc, ts, tgt, ft, cv). -/
def withRedBright (cur anc : Bright) (ts : Word) (tgt : Bright) (ft : Word) (cv : Curve) : State :=
  withChannel .s0 .red (Fader.reset 8) ⟨cur, anc, ts, tgt, ft, cv⟩

/-- The reset state with commands presented. -/
def presenting (cs : List Command) : State := { State.reset with port := cs }

/-- The reset state after an earlier BAD_CHANNEL, with commands presented. -/
def presentingAfterError (cs : List Command) : State :=
  { State.reset with status := ⟨false, false, true, false, 3⟩, faultW0 := 0x10510080, port := cs }

/-- The state a step answers, the old one if it answers none. -/
def nextOf (s : State) (o : Host.Outcome State Fault Refusal) : State :=
  match o with
  | .next t => t
  | _ => s

/-- One instruction executed. -/
def after (i : Instr) (s : State) : State := nextOf s (exec i s)

/-- One step. -/
def stepped (s : State) : State := nextOf s (step s)

/-! ### WellFormed: each check refuses a term (30_encoding.md R80) -/

theorem test_wellFormed_nop : (⟨0, 0, 0, 0⟩ : Command).wellFormed = true := by decide
theorem test_illFormed_opcode : (⟨0x90000000, 0, 0, 0⟩ : Command).wellFormed = false := by decide
theorem test_illFormed_w0 : (⟨0x10000100, 0, 0, 0⟩ : Command).wellFormed = false := by decide
theorem test_illFormed_w1 : (⟨0x70000FFF, 0x100, 0, 0⟩ : Command).wellFormed = false := by decide
theorem test_illFormed_w2 : (⟨0x100000FF, 0, 1, 0⟩ : Command).wellFormed = false := by decide
theorem test_illFormed_w3 : (⟨0x30000000, 0, 0, 1⟩ : Command).wellFormed = false := by decide
theorem test_illFormed_channel : (⟨0x10510080, 0x64, 0, 0⟩ : Command).wellFormed = false := by decide
theorem test_illFormed_curve : (⟨0x60070000, 0xFFF, 0, 0⟩ : Command).wellFormed = false := by decide

/-! ### Decoding words written out from the encoding (30_encoding.md R71, R77 to R79; words of 95_test_vectors.md) -/

theorem test_decode_nop : decode ⟨0, 0, 0, 0⟩ = .ok .nop := by decide
theorem test_decode_ldcol :
    decode ⟨0b00010000110000010000000011001000, 0b01100100, 0, 0⟩ = .ok (.ldcol .s1 .warmWhite .linear 200 100) := by
  decide
theorem test_decode_ldbri :
    decode ⟨0b00100000101100100000000001100100, 0b00000111, 0, 0⟩ = .ok (.ldbri .s1 .coldWhite .easeIn 100 7) := by
  decide
theorem test_decode_fade : decode ⟨0b00110000100000000000000000000000, 50, 1, 0⟩ = .ok (.fade .s1 50 1) := by decide
theorem test_decode_setc : decode ⟨0b01000000000000000000000000000000, 100, 1, 0⟩ = .ok (.setc .s0 100 1) := by decide
theorem test_decode_upd : decode ⟨0b01010000100000000000000000000000, 0, 0, 0⟩ = .ok (.upd .s1) := by decide
theorem test_decode_eval :
    decode ⟨0b01100000000000110000111111111111, 0, 1, 3⟩ = .ok (.eval .easeOut 4095 0 1 3) := by decide
theorem test_decode_duty : decode ⟨0b01110000000000000000100000000000, 0x7F, 0, 0⟩ = .ok (.duty 127 2048) := by decide
theorem test_decode_rst : decode ⟨0b11110000000000000000000000000000, 0, 0, 0⟩ = .ok .rst := by decide

theorem test_decode_reserved_op_first : decode ⟨0xE1234567, 0, 0, 0⟩ = .error .reservedOp := by decide
theorem test_decode_reserved_bits_before_channel : decode ⟨0x1F7F0000, 0, 0, 0⟩ = .error .reservedBits := by decide
theorem test_decode_channel_before_curve : decode ⟨0x10770080, 0x64, 0, 0⟩ = .error .badChannel := by decide
theorem test_decode_bad_curve : decode ⟨0x20050FFF, 0x64, 0, 0⟩ = .error .badCurve := by decide
theorem test_decode_table_word : decodeTableWord 128 0x000003E8100100FF = some (.ldcol .s0 .red .linear 255 1000) := by
  decide

/-! ### LDCOL, LDBRI (95_test_vectors.md, 2.2) -/

theorem test_ldcol_stages :
    let x := (after (.ldcol .s1 .red .linear 128 0) State.reset).channel .s1 .red
    x.color.tgt = 128 ∧ x.color.cv = .linear ∧ x.color.ft = 0 ∧ x.color.cur = 0 ∧ x.bright.tgt = 0 := by decide
theorem test_ldbri_stages :
    let x := (after (.ldbri .s1 .warmWhite .easeInOut 4095 6000) State.reset).channel .s1 .warmWhite
    x.bright.tgt = 4095 ∧ x.bright.cv = .easeInOut ∧ x.bright.ft = 6000 ∧ x.bright.cur = 0 ∧ x.color.tgt = 0 := by
  decide

/-! ### FADE (95_test_vectors.md, 2.3: F7 and F3) -/

theorem test_fade_across_time_wrap :
    let x := ((after (.fade .s0 0x10 1) (withRed 0 0 0xFFFFFFF0 200 0x40 .linear)).channel .s0 .red).color
    x.cur = 100 ∧ x.anc = 0 ∧ x.ts = 0xFFFFFFF0 := by decide
theorem test_fade_gap_returns_to_anchor :
    let t := after (.fade .s0 1080 3) (withRedBright 2047 0 1000 4095 100 .linear)
    (t.channel .s0 .red).bright.cur = 0 ∧ (t.channel .s0 .red).bright.ts = 1080 ∧ t.status.settled0 = false := by
  decide

/-! ### SETC (95_test_vectors.md, 2.4) -/

theorem test_setc_sets_at_once :
    let t := after (.setc .s0 100 1) (withRed 0 0 0 255 1000 .linear)
    (t.channel .s0 .red).color = ⟨255, 255, 0, 255, 1000, .linear⟩ ∧ (t.channel .s0 .green).color.ts = 100 ∧
      (t.strip .s0).lastTick = 1 ∧ t.status.settled0 = true := by decide

/-! ### UPD (95_test_vectors.md, 2.6) -/

theorem test_upd_bytes_duty_4095 :
    ((updChannel testParams .s0 (withChannel .s0 .green ⟨255, 0, 0, 0, 0, .none⟩ ⟨4095, 0, 0, 0, 0, .none⟩)
      .green).writes) =
      [⟨0x40, 0x0A, 0x33⟩, ⟨0x40, 0x0B, 0x03⟩, ⟨0x40, 0x0C, 0x32⟩, ⟨0x40, 0x0D, 0x03⟩] := by decide
theorem test_upd_bytes_duty_1024 :
    ((updChannel testParams .s1 (withChannel .s1 .warmWhite ⟨127, 0, 0, 0, 0, .none⟩ ⟨2048, 0, 0, 0, 0, .none⟩)
      .warmWhite).writes) =
      [⟨0x40, 0x2A, 0xCF⟩, ⟨0x40, 0x2B, 0x0C⟩, ⟨0x40, 0x2C, 0xCF⟩, ⟨0x40, 0x2D, 0x00⟩] := by decide

/-! ### EVAL (95_test_vectors.md, 2.1) -/

theorem test_eval_easeInOut_third : (after (.eval .easeInOut 0 4095 1 3) State.reset).result = 404 := by decide
theorem test_eval_easeOut_falling : (after (.eval .easeOut 4095 0 1 3) State.reset).result = 808 := by decide

/-! ### DUTY (95_test_vectors.md, 2.5) -/

theorem test_duty_saturates : (after (.duty 255 4095) State.reset).result = 4095 := by decide
theorem test_duty_rounds : (after (.duty 200 3000) State.reset).result = 2356 := by decide

/-! ### NOP, RST (95_test_vectors.md, 2.7) -/

theorem test_nop_keeps_result : (after .nop { State.reset with result := 4095 }).result = 4095 := by decide
theorem test_rst_clears_status_keeps_history :
    let t := after .rst { State.reset with
      status := ⟨true, false, true, true, 3⟩, result := 4095, writes := [⟨1, 2, 3⟩] }
    t.readStatus = 0 ∧ t.result = 0 ∧ t.writes = [⟨1, 2, 3⟩] := by decide

/-! ### Illegal commands (95_test_vectors.md, 2.8 and P4) -/

theorem test_illegal_first :
    let t := stepped (presenting [⟨0x10510080, 0x64, 0, 0⟩])
    t.readStatus = 0x34 ∧ t.readFaultW0 = 0x10510080 ∧ t.port = [] := by decide
theorem test_illegal_again :
    let t := stepped (presentingAfterError [⟨0x60070000, 0xFFF, 0, 0⟩])
    t.readStatus = 0x3C ∧ t.readFaultW0 = 0x10510080 ∧ t.result = 0 := by decide

/-! ### Both settings of ANCHOR_AT_TARGET (95_test_vectors.md, P7 at command 5) -/

theorem test_anchor_at_target :
    ((⟨100, 0, 0, 100, 100, .linear⟩ : Fader 8).step testParams 60 100 .linear).anc = 100 ∧
    ((⟨100, 0, 0, 100, 100, .linear⟩ : Fader 8).step { testParams with anchorAtTarget := false } 60 100 .linear).anc =
      0 := by decide

/-! ### The percent near the ends of the clock's range, by hand from 41_fade.md R140 and R145 -/

theorem test_fade_half_range_elapsed :
    ((⟨0, 0, 0, 4095, 0xFFFFFFFF, .linear⟩ : Fader 12).step Config.block 0x80000000 0xFFFFFFFF .linear).cur = 2047 := by
  decide
theorem test_fade_backward_time :
    ((⟨0, 0, 1000, 200, 0xFFFFFFFE, .linear⟩ : Fader 8).step Config.block 998 0xFFFFFFFE .linear).cur = 200 := by decide

/-! ### Witnesses: hypotheses of the obligations, met -/

theorem test_witness_EncodeOfDecode :
    decode ⟨0x20C40FFF, 0x00001770, 0, 0⟩ = .ok (.ldbri .s1 .warmWhite .easeInOut 4095 6000) := by decide

/-- Opcodes 8 and 14 at the ends of the reserved range, and a command for each branch under a row. -/
theorem test_witness_DecodeNamesFirstCause :
    (8 ≤ (0x80000000#32).toNat / 2 ^ 28 ∧ (0x80000000#32).toNat / 2 ^ 28 ≤ 14) ∧
    (8 ≤ (0xEFFFFFFF#32).toNat / 2 ^ 28 ∧ (0xEFFFFFFF#32).toNat / 2 ^ 28 ≤ 14) ∧
    ∃ r ∈ opcodeTable, r.pattern.toNat / 2 ^ 28 = (0x10510080#32).toNat / 2 ^ 28 ∧
      (r.fixedBits ⟨0x10000100, 0, 0, 0⟩ && r.zeroWords ⟨0x10000100, 0, 0, 0⟩) = false ∧
      (r.fixedBits ⟨0x10510080, 0x64, 0, 0⟩ && r.zeroWords ⟨0x10510080, 0x64, 0, 0⟩) = true ∧
      r.chanOk ⟨0x10510080, 0x64, 0, 0⟩ = false ∧
      r.chanOk ⟨0x10450080, 0x64, 0, 0⟩ = true ∧ r.curveOk ⟨0x10450080, 0x64, 0, 0⟩ = false ∧
      r.curveOk ⟨0x104400FF, 0x64, 0, 0⟩ = true := by decide

/-- The greatest operands that fit, and for each kind of operand the least that does not. -/
theorem test_witness_AssemblerPlacesOperands :
    (AsmLine.ldcol 1 4 4 255 0xFFFFFFFF).assemble = some ⟨0x10C400FF, 0xFFFFFFFF, 0, 0⟩ ∧
    (AsmLine.ldcol 2 0 0 0 0).assemble = none ∧ (AsmLine.ldcol 0 5 0 0 0).assemble = none ∧
    (AsmLine.ldbri 0 0 5 0 0).assemble = none ∧ (AsmLine.ldbri 0 0 0 4096 0).assemble = none ∧
    (AsmLine.fade 0 0x100000000 0).assemble = none ∧ (AsmLine.setc 1 0 0xFFFFFFFF).assemble =
      some ⟨0x40800000, 0, 0xFFFFFFFF, 0⟩ ∧
    (AsmLine.upd 1).assemble = some ⟨0x50800000, 0, 0, 0⟩ ∧ (AsmLine.upd 2).assemble = none ∧
    (AsmLine.eval 4 4095 4095 0 0).assemble = some ⟨0x60040FFF, 0xFFF, 0, 0⟩ ∧
    (AsmLine.eval 0 0 4096 0 0).assemble = none ∧
    (AsmLine.duty 255 4095).assemble = some ⟨0x70000FFF, 0xFF, 0, 0⟩ ∧ (AsmLine.duty 256 0).assemble = none := by
  decide

theorem test_witness_StepRunsDecodedCommand :
    (presenting [⟨0x50800000, 0, 0, 0⟩]).port = [⟨0x50800000, 0, 0, 0⟩] ∧
      decode ⟨0x50800000, 0, 0, 0⟩ = .ok (.upd .s1) := by decide

theorem test_witness_FetchWordRuns : decodeTableWord 32 0x50800000 = some (.upd .s1) := by decide

/-- A first error and a later one. -/
theorem test_witness_StepRecordsIllegalCommand :
    decode ⟨0x90000000, 0, 0, 0⟩ = .error .reservedOp ∧
    (presenting [⟨0x90000000, 0, 0, 0⟩]).port = [⟨0x90000000, 0, 0, 0⟩] ∧
    (presenting [⟨0x90000000, 0, 0, 0⟩]).status.err = false ∧
    (presentingAfterError [⟨0x90000000, 0, 0, 0⟩]).status.err = true := by decide

theorem test_witness_IdleStepHoldsState : (withRed 1 2 3 4 5 .linear).port = [] := by decide

theorem test_witness_NopDoesNothing :
    (⟨0, 1, 0, 0⟩ : Command).w0.toNat / 2 ^ 28 = 0 ∧ (⟨0, 1, 0, 0⟩ : Command) ≠ ⟨0, 0, 0, 0⟩ := by decide

theorem test_witness_RstResetsTheBlock :
    (⟨0xF0000001, 0, 0, 0⟩ : Command).w0.toNat / 2 ^ 28 = 15 ∧
      (⟨0xF0000001, 0, 0, 0⟩ : Command) ≠ ⟨0xF0000000, 0, 0, 0⟩ := by decide

/-- A strip and a channel that a load of (s0, red) does not name. -/
theorem test_witness_LdcolLoadsColorTarget :
    ¬ (StripId.s1 = StripId.s0 ∧ Chan.red = Chan.red) ∧ ¬ (StripId.s0 = StripId.s0 ∧ Chan.warmWhite = Chan.red) := by
  decide

theorem test_witness_CurveStaysBetweenEndpoints : (0 : ℚ) ≤ 0 ∧ (0 : ℚ) ≤ 1 ∧ (1 : ℚ) ≤ 1 := by norm_num

theorem test_witness_CurveEndpoints :
    ((Frac.ofInt 1).num : ℚ) / (Frac.ofInt 1).den = 1 ∧ ((Frac.ofInt 0).num : ℚ) / (Frac.ofInt 0).den = 0 := by
  norm_num [Frac.ofInt]

theorem test_witness_CurveMonotone :
    ((Frac.ofInt 0).num : ℚ) / (Frac.ofInt 0).den ≤ ((Frac.ofInt 1).num : ℚ) / (Frac.ofInt 1).den ∧
      (0 : ℕ) ≤ 255 := by norm_num [Frac.ofInt]

/-- p = 3/4 falling from 255 to 0, and p = 1 rising. -/
theorem test_witness_FloorAsymmetry :
    Curve.easeOut ≠ Curve.none ∧ (0 : ℕ) < 255 ∧
      0 ≤ ((Frac.ratio 3 4 (by decide)).num : ℚ) / (Frac.ratio 3 4 (by decide)).den ∧
      ((Frac.ratio 3 4 (by decide)).num : ℚ) / (Frac.ratio 3 4 (by decide)).den ≤ 1 ∧
      ((Frac.ofInt 1).num : ℚ) / (Frac.ofInt 1).den = 1 := by
  refine ⟨by decide, by decide, ?_, ?_, ?_⟩ <;> norm_num [Frac.ratio, Frac.ofInt]

theorem test_witness_AtTargetSlidesTimestamp :
    (⟨7, 7, 500, 7, 100, .linear⟩ : Fader 12).cur = (⟨7, 7, 500, 7, 100, .linear⟩ : Fader 12).tgt := by decide

theorem test_witness_StepOrderIrrelevant : passOrder.reverse.Perm passOrder ∧ passOrder.reverse ≠ passOrder := by
  decide

/-- A gap (tick 3 after LAST_TICK 0), and a component not at its target. -/
theorem test_witness_GapReturnsToAnchor :
    let st := withRedBright 2047 0 1000 4095 100 .linear
    (3#32).toNat ≠ ((st.strip .s0).lastTick.toNat + 1) % 2 ^ 32 ∧
      (st.channel .s0 .red).bright.cur ≠ (st.channel .s0 .red).bright.tgt := by decide

theorem test_witness_RetargetToAnchorSettles :
    let x := ((withRed 100 0 0 0 100 .linear).channel .s0 .red).color
    x.tgt = x.anc ∧ x.cur ≠ x.tgt := by decide

/-- No gap, one component whose fade time is exactly over and all others at their targets. -/
theorem test_witness_FadeCompletesWhenTimeIsUp :
    let st := withRedBright 0 0 1000 4095 100 .linear
    (1#32).toNat = ((st.strip .s0).lastTick.toNat + 1) % 2 ^ 32 ∧
      ∀ ch, ForBoth (fun _ x _ => x.cur = x.tgt ∨ x.ft.toNat ≤ elapsedQ 1100 x.ts) (st.channel .s0 ch)
        (st.channel .s0 ch) := by
  refine ⟨by decide, fun ch => ?_⟩
  cases ch <;> exact ⟨by decide, by decide⟩

/-- Vector F8's clock 1 ms back, with the greatest fade time that is over, and 2 ms back with one that is not; and the
far end of the range. -/
theorem test_witness_BackwardTimeCompletes :
    let st := withRed 0 0 1000 200 0xFFFFFFFF .linear
    let x := (st.channel .s0 .red).color
    (1#32).toNat = ((st.strip .s0).lastTick.toNat + 1) % 2 ^ 32 ∧ x.cur ≠ x.tgt ∧
      999#32 = x.ts - BitVec.ofNat 32 1 ∧ x.ft.toNat ≤ 2 ^ 32 - 1 ∧
      998#32 = x.ts - BitVec.ofNat 32 2 ∧ 2 ^ 32 - 2 < x.ft.toNat ∧
      1001#32 = x.ts - BitVec.ofNat 32 (2 ^ 32 - 1) := by decide

/-- Vector F7, 32 ms across the wrap of the clock, and the longest time the statement is about. -/
theorem test_witness_FadeIsTimedAcrossTheWrap :
    let st := withRed 0 0 0xFFFFFFF0 200 0x40 .linear
    let x := (st.channel .s0 .red).color
    (1#32).toNat = ((st.strip .s0).lastTick.toNat + 1) % 2 ^ 32 ∧ x.cur ≠ x.tgt ∧
      0x10#32 = x.ts + BitVec.ofNat 32 32 ∧ 0xFFFFFFEF#32 = x.ts + BitVec.ofNat 32 (2 ^ 32 - 1) := by decide

theorem test_witness_SettledStripStaysSettled :
    let st := withRedBright 4095 4095 1000 4095 100 .linear
    ∀ ch, ForBoth (fun _ x _ => x.cur = x.tgt) (st.channel .s0 ch) (st.channel .s0 ch) := by
  intro st ch
  cases ch <;> exact ⟨by decide, by decide⟩

/-- FADE and SETC are the instructions meant, and FADE can leave a component at its target. -/
theorem test_witness_SettledComponentsAreAnchored :
    Instr.fade .s0 1100 1 ∈ [Instr.fade .s0 1100 1, Instr.setc .s0 1100 1] ∧
    Instr.setc .s0 1100 1 ∈ [Instr.fade .s0 1100 1, Instr.setc .s0 1100 1] ∧
    let y := ((after (.fade .s0 1100 1) (withRedBright 0 0 1000 4095 100 .linear)).channel .s0 .red).bright
    y.cur = y.tgt ∧ y.anc = 4095 := by decide

theorem test_witness_AnchorMovesOnlyToReachedValue :
    ∃ t, step { withRedBright 0 0 1000 4095 100 .linear with port := [⟨0x30000000, 1100, 1, 0⟩] } = .next t ∧
      (t.channel .s0 .red).bright.anc = 4095 := by
  refine ⟨_, rfl, ?_⟩
  decide

theorem test_witness_EqualStripsFadeAlike :
    let st := (withRed 0 0 0 200 100 .linear).setChannel .s1 .red ((withRed 0 0 0 200 100 .linear).channel .s0 .red)
    st.strip .s0 = st.strip .s1 := by decide

/-- A zero operand, the smallest pair, the largest pair, and the bounds of the saturation clauses. -/
theorem test_witness_Duty :
    ((0 : Color) = 0 ∨ (5 : Bright) = 0) ∧ ¬ ((1 : Color) = 0 ∨ (1 : Bright) = 0) ∧
    |((0 : ℤ) : ℚ) - (((1 + 1) * 16 * 1 : ℕ) : ℚ) / 4095| ≤ 1 / 2 ∧
    (255#8).toNat = 255 ∧ (4095#12).toNat = 4095 ∧ (254#8).toNat ≤ 254 ∧ (4094#12).toNat = 4094 ∧
    (((1 + 1) * 16 * 1 : ℕ) : ℚ) / 4095 < 1 / 2 := by
  refine ⟨by decide, by decide, ?_, by decide, by decide, by decide, by decide, ?_⟩
  · norm_num [abs_le]
  · norm_num

theorem test_witness_UpdWritesChangedChannels :
    ((State.reset.channel .s0 .red).shv = false) ∧
    ¬ ((⟨Fader.reset 8, Fader.reset 12, false, true, 0, 0⟩ : Channel).shv = false) ∧ StripId.s1 ≠ StripId.s0 := by
  decide

theorem test_witness_UpdIgnoresStaging :
    Instr.ldcol .s0 .red .linear 1 2 ∈ [Instr.ldcol .s0 .red .linear 1 2, Instr.ldbri .s0 .red .linear 1 2] ∧
    Instr.ldbri .s0 .red .linear 1 2 ∈ [Instr.ldcol .s0 .red .linear 1 2, Instr.ldbri .s0 .red .linear 1 2] := by
  decide

theorem test_witness_FirstUpdAfterReset :
    StripId.s1 ≠ StripId.s0 ∧ testParams.shadowInit = .invalid ∧
    ({ testParams with shadowInit := .zero } : Params).shadowInit = .zero := by
  decide

/-- A legal command and an illegal one. -/
theorem test_witness_OnlyListedCommandsWrite :
    (∃ t, step (presenting [⟨0x60010000, 0xFF, 0, 0⟩]) = .next t ∧ t.result = 255) ∧
    (∃ t, step (presenting [⟨0x60070000, 0xFF, 0, 0⟩]) = .next t ∧ t.result = 0) := by
  refine ⟨⟨_, rfl, ?_⟩, ⟨_, rfl, ?_⟩⟩ <;> decide

theorem test_witness_ErrorsStickUntilReset :
    (∃ t, step (presentingAfterError [⟨0, 0, 0, 0⟩]) = .next t) ∧
    (presentingAfterError [⟨0, 0, 0, 0⟩]).status.err = true ∧
    ∀ c rest, (presentingAfterError [⟨0, 0, 0, 0⟩]).port = c :: rest → decode c ≠ .ok .rst := by
  refine ⟨⟨_, rfl⟩, rfl, fun c rest h => ?_⟩
  obtain ⟨rfl, rfl⟩ := List.cons.inj h
  decide

/-- A command other than UPD, which writes nothing, and UPD, which from reset writes 20 bytes. -/
theorem test_witness_WriteHistoryOnlyGrows :
    (∃ t, step (presenting [⟨0, 0, 0, 0⟩]) = .next t ∧ t.writes = []) ∧
    (∃ t, step (presenting [⟨0x50000000, 0, 0, 0⟩]) = .next t ∧ t.writes.length = 20) ∧
    ∀ c rest s, (presenting [⟨0, 0, 0, 0⟩]).port = c :: rest → decode c ≠ .ok (.upd s) := by
  refine ⟨⟨_, rfl, by decide⟩, ⟨_, rfl, by decide⟩, fun c rest s h => ?_⟩
  obtain ⟨rfl, rfl⟩ := List.cons.inj h
  cases s <;> decide

/-- A state with an error recorded, a result, one event emitted and a command presented. -/
def invState : State :=
  { presentingAfterError [⟨0x30000000, 1, 1, 0⟩] with
    result := 4095
    writes := [⟨Config.block.pwmI2cAddr, BitVec.ofNat 8 (Config.block.regBase .s0 .red).val, 0⟩] }

theorem test_witness_StepKeepsInvariant : Inv invState ∧ ∃ t, step invState = .next t := by
  refine ⟨⟨⟨fun h => ?_, fun _ => by decide⟩,
    (by decide : (4095#32).toNat < 4096), fun s => ?_, fun s ch _ => ?_, fun e he => ?_⟩, _, rfl⟩
  · exact absurd h (by decide)
  · constructor
    · cases s <;> intro h <;> exact absurd h (by decide)
    · intro h
      have := h .red
      cases s <;> exact absurd this (by decide)
  · cases s <;> cases ch <;> exact ⟨rfl, rfl⟩
  · obtain rfl := List.mem_singleton.1 he
    have := (Config.block.regBase .s0 .red).isLt
    refine ⟨rfl, .s0, .red, .inl ⟨?_, rfl⟩⟩
    simp
    omega

end Sys2Proof.Tests
end

section
/-! PROOFS. The two rounding modes of ToInt, and the step on a command that decodes (spec/00_scope.md). -/

namespace Sys2Proof.Machine

/-- R12: the integer division of a fraction is the floor of its value. -/
theorem Frac.floor_eq (x : Frac) : x.floor = ⌊x.toRat⌋ := by
  rw [Frac.floor, Frac.toRat, Int.floor_div_natCast, Int.floor_intCast]

/-- The remainder that `Frac.nearest` compares with half the denominator is the fractional part. -/
theorem Frac.fract_toRat (x : Frac) : Int.fract x.toRat = ((x.num % (x.den : Int) : ℤ) : ℚ) / x.den :=
  Int.fract_div_intCast_eq_div_intCast_mod

/-- `Frac.nearest` rounds down only up to a fractional part of one half and up only from one half on. -/
theorem Frac.nearest_cases (x : Frac) :
    (x.nearest = ⌊x.toRat⌋ ∧ Int.fract x.toRat ≤ 1 / 2) ∨
    (x.nearest = ⌊x.toRat⌋ + 1 ∧ 1 / 2 ≤ Int.fract x.toRat) := by
  have hden : (0 : ℚ) < x.den := by exact_mod_cast x.den_pos
  have hdown : Int.fract x.toRat ≤ 1 / 2 ↔ 2 * (x.num % (x.den : Int)) ≤ x.den := by
    rw [x.fract_toRat, div_le_div_iff₀ hden two_pos, one_mul, mul_comm]
    exact_mod_cast Iff.rfl
  have hup : 1 / 2 ≤ Int.fract x.toRat ↔ (x.den : Int) ≤ 2 * (x.num % (x.den : Int)) := by
    rw [x.fract_toRat, div_le_div_iff₀ two_pos hden, one_mul, mul_comm]
    exact_mod_cast Iff.rfl
  rw [hdown, hup, ← x.floor_eq]
  simp only [Frac.nearest]
  split_ifs with hlt hgt htie
  · exact .inl ⟨rfl, hlt.le⟩
  · exact .inr ⟨rfl, hgt.le⟩
  · exact .inr ⟨rfl, not_lt.1 hlt⟩
  · exact .inl ⟨rfl, not_lt.1 hgt⟩

/-- `Frac.nearest` is within one half of the value, whatever the tie gives. -/
theorem Frac.abs_nearest_sub_le (x : Frac) : |(x.nearest : ℚ) - x.toRat| ≤ 1 / 2 := by
  have hsplit : (⌊x.toRat⌋ : ℚ) + Int.fract x.toRat = x.toRat := Int.floor_add_fract _
  have hnonneg := Int.fract_nonneg x.toRat
  have hlt := Int.fract_lt_one x.toRat
  rw [abs_le]
  obtain ⟨hn, hf⟩ | ⟨hn, hf⟩ := x.nearest_cases
  · rw [hn]
    constructor <;> linarith
  · rw [hn, Int.cast_add, Int.cast_one]
    constructor <;> linarith

/-- R82: a presented command that decodes is taken from the port and executed. -/
theorem step_of_decode_ok {s : State} {c : Command} {rest : List Command} {i : Instr} (hp : s.port = c :: rest)
    (hd : decode c = .ok i) : step s = exec i { s with port := rest } := by
  simp only [step, State.takeCommand_cons hp, hd]

end Sys2Proof.Machine

namespace Sys2Proof.Proofs

open Sys2Proof.Machine

/-- Settles O26: the floor of the value, and a nearest integer that rounds by the fractional part. -/
theorem toIntRounds : Obligations.ToIntRounds := fun q => ⟨q.floor_eq, q.abs_nearest_sub_le⟩

/-- Settles O8, by the equation of a step whose command decodes. -/
theorem stepRunsDecodedCommand : Obligations.StepRunsDecodedCommand :=
  fun _ _ _ _ hp hd => step_of_decode_ok hp hd

end Sys2Proof.Proofs
end

section
/-! PROOFS. What a command makes of the state, element by element (spec/10_state.md R36): the rules that the state's
obligations are assembled from. -/

namespace Sys2Proof.Machine

open Safety

/-! ### The state a command leaves -/

/-- The state a command leaves: `exec` without the outcome around it, since no command stops the block (R243). -/
def effect (i : Instr) (st : State) : State :=
  match i with
  | .nop => st
  | .ldcol s ch cv color ft =>
    st.setChannel s ch { st.channel s ch with color := (st.channel s ch).color.load color cv ft }
  | .ldbri s ch cv bright ft =>
    st.setChannel s ch { st.channel s ch with bright := (st.channel s ch).bright.load bright cv ft }
  | .fade s now tick => fadeStrip Config.block .staged s now tick st
  | .setc s now tick => fadeStrip Config.block .instant s now tick st
  | .upd s => updStrip Config.block s st
  | .eval cv start stop elapsed ft => st.setResult (evalCurve Config.block cv start stop elapsed ft)
  | .duty color bright => st.setResult (zext32 (duty color bright))
  | .rst => resetState Config.block st

theorem exec_eq_effect (i : Instr) (st : State) : exec i st = .next (effect i st) := by
  cases i <;> rfl

theorem eq_effect_of_exec {i : Instr} {st t : State} (h : exec i st = .next t) : t = effect i st := by
  rw [exec_eq_effect] at h
  exact (Host.Outcome.next.inj h).symm

/-- R212: a presented command that does not decode is taken from the port and recorded. -/
theorem step_of_decode_error {st : State} {c : Command} {rest : List Command} {k : Cause} (hp : st.port = c :: rest)
    (hd : decode c = .error k) : step st = .next (raiseIllegal k c.w0 { st with port := rest }) := by
  simp only [step, State.takeCommand_cons hp, hd]

/-! ### Fade passes: what they leave alone -/

theorem Fader.sameStaging_stepTimed {w : Nat} (P : Params) (tm : FadeTiming) (now : Word) (x : Fader w) :
    SameStaging x (x.stepTimed P tm now) := by
  cases tm <;> exact ⟨Fader.tgt_step .., Fader.ft_step .., Fader.cv_step ..⟩

/-- R36: a pass writes no staging register. -/
theorem Strip.sameStaging_fadePass (P : Params) (tm : FadeTiming) (now tick : Word) (x : Strip) (ch : Chan) :
    SameStaging (x.channel ch).color ((x.fadePass P tm now tick).channel ch).color ∧
    SameStaging (x.channel ch).bright ((x.fadePass P tm now tick).channel ch).bright := by
  rw [Strip.channel_fadePass]
  split
  · exact ⟨Fader.sameStaging_stepTimed P tm now ((x.channel ch).color.restart now),
      Fader.sameStaging_stepTimed P tm now ((x.channel ch).bright.restart now)⟩
  · exact ⟨Fader.sameStaging_stepTimed P tm now _, Fader.sameStaging_stepTimed P tm now _⟩

/-- R36: a pass writes no shadow. -/
theorem Strip.keepsShadow_fadePass (P : Params) (tm : FadeTiming) (now tick : Word) (x : Strip) (ch : Chan) :
    KeepsShadow (x.channel ch) ((x.fadePass P tm now tick).channel ch) := by
  rw [Strip.channel_fadePass]
  split <;> exact ⟨rfl, rfl, rfl⟩

theorem keepsErrors_fadeStrip (P : Params) (tm : FadeTiming) (s : StripId) (now tick : Word) (st : State) :
    KeepsErrors st (fadeStrip P tm s now tick st) :=
  ⟨err_fadeStrip .., merr_fadeStrip .., cause_fadeStrip .., faultW0_fadeStrip ..⟩

/-! ### One channel -/

/-- All that a command other than RST can do to a channel: nothing, a load of one component, a pass over its strip, or
the shadow's update (R36). -/
theorem channel_effect_cases {i : Instr} (st : State) (s : StripId) (ch : Chan) (hr : i ≠ .rst) :
    (effect i st).channel s ch = st.channel s ch ∨
    (∃ cv color ft, i = .ldcol s ch cv color ft ∧ (effect i st).channel s ch =
      { st.channel s ch with color := (st.channel s ch).color.load color cv ft }) ∨
    (∃ cv bright ft, i = .ldbri s ch cv bright ft ∧ (effect i st).channel s ch =
      { st.channel s ch with bright := (st.channel s ch).bright.load bright cv ft }) ∨
    (∃ tm now tick, (i = .fade s now tick ∨ i = .setc s now tick) ∧ (effect i st).channel s ch =
      ((st.strip s).fadePass Config.block tm now tick).channel ch) ∨
    (i = .upd s ∧ (effect i st).channel s ch = (st.channel s ch).markWritten) := by
  cases i with
  | nop => exact .inl rfl
  | ldcol s' ch' cv color ft =>
    by_cases h : s = s' ∧ ch = ch'
    · obtain ⟨rfl, rfl⟩ := h
      exact .inr (.inl ⟨cv, color, ft, rfl, State.channel_setChannel_self ..⟩)
    · exact .inl ((State.channel_setChannel ..).trans (if_neg h))
  | ldbri s' ch' cv bright ft =>
    by_cases h : s = s' ∧ ch = ch'
    · obtain ⟨rfl, rfl⟩ := h
      exact .inr (.inr (.inl ⟨cv, bright, ft, rfl, State.channel_setChannel_self ..⟩))
    · exact .inl ((State.channel_setChannel ..).trans (if_neg h))
  | fade s' now tick =>
    by_cases h : s = s'
    · subst h
      exact .inr (.inr (.inr (.inl ⟨.staged, now, tick, .inl rfl, (channel_fadeStrip ..).trans (if_pos rfl)⟩)))
    · exact .inl ((channel_fadeStrip ..).trans (if_neg h))
  | setc s' now tick =>
    by_cases h : s = s'
    · subst h
      exact .inr (.inr (.inr (.inl ⟨.instant, now, tick, .inr rfl, (channel_fadeStrip ..).trans (if_pos rfl)⟩)))
    · exact .inl ((channel_fadeStrip ..).trans (if_neg h))
  | upd s' =>
    by_cases h : s = s'
    · subst h
      exact .inr (.inr (.inr (.inr ⟨rfl, (channel_updStrip ..).trans (if_pos rfl)⟩)))
    · exact .inl ((channel_updStrip ..).trans (if_neg h))
  | eval cv start stop elapsed ft => exact .inl rfl
  | duty color bright => exact .inl rfl
  | rst => exact absurd rfl hr

theorem lastTick_effect {i : Instr} (st : State) (s : StripId) (hf : ∀ now tick, i ≠ .fade s now tick)
    (hs : ∀ now tick, i ≠ .setc s now tick) (hr : i ≠ .rst) :
    ((effect i st).strip s).lastTick = (st.strip s).lastTick := by
  cases i with
  | ldcol | ldbri => exact State.lastTick_setChannel ..
  | fade s' now tick => rw [effect, strip_fadeStrip_ne _ _ _ _ _ fun h => hf now tick (by rw [h])]
  | setc s' now tick => rw [effect, strip_fadeStrip_ne _ _ _ _ _ fun h => hs now tick (by rw [h])]
  | upd => exact lastTick_updStrip ..
  | rst => exact absurd rfl hr
  | nop | eval | duty => rfl

/-- R36: fade state changes only under FADE and SETC of the strip, and RST. -/
theorem sameFadeState_effect {i : Instr} (st : State) (s : StripId) (hf : ∀ now tick, i ≠ .fade s now tick)
    (hs : ∀ now tick, i ≠ .setc s now tick) (hr : i ≠ .rst) :
    SameFadeState (st.strip s) ((effect i st).strip s) := by
  refine ⟨lastTick_effect st s hf hs hr, fun ch => ?_⟩
  change KeepsFade (st.channel s ch).color ((effect i st).channel s ch).color ∧
    KeepsFade (st.channel s ch).bright ((effect i st).channel s ch).bright ∧
    ((effect i st).channel s ch).settled = (st.channel s ch).settled
  obtain h | ⟨_, _, _, -, h⟩ | ⟨_, _, _, -, h⟩ | ⟨_, now, tick, rfl | rfl, -⟩ | ⟨-, h⟩ :=
    channel_effect_cases st s ch hr
  case inr.inr.inr.inl.inl => exact absurd rfl (hf now tick)
  case inr.inr.inr.inl.inr => exact absurd rfl (hs now tick)
  all_goals
    rw [h]
    exact ⟨⟨rfl, rfl, rfl⟩, ⟨rfl, rfl, rfl⟩, rfl⟩

/-- R36: the color staging registers change only under LDCOL of the channel, and RST. -/
theorem sameStaging_color_effect {i : Instr} (st : State) (s : StripId) (ch : Chan)
    (hl : ∀ cv color ft, i ≠ .ldcol s ch cv color ft) (hr : i ≠ .rst) :
    SameStaging (st.channel s ch).color ((effect i st).channel s ch).color := by
  obtain h | ⟨cv, color, ft, rfl, -⟩ | ⟨_, _, _, -, h⟩ | ⟨tm, now, tick, -, h⟩ | ⟨-, h⟩ :=
    channel_effect_cases st s ch hr
  case inr.inl => exact absurd rfl (hl cv color ft)
  case inr.inr.inr.inl =>
    rw [h]
    exact (Strip.sameStaging_fadePass ..).1
  all_goals
    rw [h]
    exact ⟨rfl, rfl, rfl⟩

/-- R36: the brightness staging registers change only under LDBRI of the channel, and RST. -/
theorem sameStaging_bright_effect {i : Instr} (st : State) (s : StripId) (ch : Chan)
    (hl : ∀ cv bright ft, i ≠ .ldbri s ch cv bright ft) (hr : i ≠ .rst) :
    SameStaging (st.channel s ch).bright ((effect i st).channel s ch).bright := by
  obtain h | ⟨_, _, _, -, h⟩ | ⟨cv, bright, ft, rfl, -⟩ | ⟨tm, now, tick, -, h⟩ | ⟨-, h⟩ :=
    channel_effect_cases st s ch hr
  case inr.inr.inl => exact absurd rfl (hl cv bright ft)
  case inr.inr.inr.inl =>
    rw [h]
    exact (Strip.sameStaging_fadePass ..).2
  all_goals
    rw [h]
    exact ⟨rfl, rfl, rfl⟩

/-- R36: the shadow changes only under UPD of the strip, and RST. -/
theorem keepsShadow_effect {i : Instr} (st : State) (s : StripId) (ch : Chan) (hu : i ≠ .upd s) (hr : i ≠ .rst) :
    KeepsShadow (st.channel s ch) ((effect i st).channel s ch) := by
  obtain h | ⟨_, _, _, -, h⟩ | ⟨_, _, _, -, h⟩ | ⟨tm, now, tick, -, h⟩ | ⟨h, -⟩ := channel_effect_cases st s ch hr
  case inr.inr.inr.inl =>
    rw [h]
    exact Strip.keepsShadow_fadePass ..
  case inr.inr.inr.inr => exact absurd h hu
  all_goals
    rw [h]
    exact ⟨rfl, rfl, rfl⟩

/-! ### The outputs, the write history and the port -/

/-- R36: SETTLED of a strip changes only under FADE and SETC of the strip, and RST. -/
theorem settled_effect {i : Instr} (st : State) (s : StripId) (hf : ∀ now tick, i ≠ .fade s now tick)
    (hs : ∀ now tick, i ≠ .setc s now tick) (hr : i ≠ .rst) :
    (effect i st).status.settled s = st.status.settled s := by
  cases i with
  | fade s' now tick => exact settled_fadeStrip_ne _ _ _ _ _ fun h => hf now tick (by rw [h])
  | setc s' now tick => exact settled_fadeStrip_ne _ _ _ _ _ fun h => hs now tick (by rw [h])
  | upd => rw [effect, status_updStrip]
  | rst => exact absurd rfl hr
  | nop | ldcol | ldbri | eval | duty => rfl

/-- R36: RESULT changes only under EVAL, DUTY and RST. -/
theorem result_effect {i : Instr} (st : State) (he : ∀ cv a b e ft, i ≠ .eval cv a b e ft)
    (hd : ∀ color bright, i ≠ .duty color bright) (hr : i ≠ .rst) : (effect i st).result = st.result := by
  cases i with
  | eval cv a b e ft => exact absurd rfl (he cv a b e ft)
  | duty color bright => exact absurd rfl (hd color bright)
  | rst => exact absurd rfl hr
  | fade | setc => exact result_fadeStrip ..
  | upd => exact result_updStrip ..
  | nop | ldcol | ldbri => rfl

/-- R36: no legal command but RST writes an error field. -/
theorem keepsErrors_effect {i : Instr} (st : State) (hr : i ≠ .rst) : KeepsErrors st (effect i st) := by
  cases i with
  | rst => exact absurd rfl hr
  | fade | setc => exact keepsErrors_fadeStrip ..
  | upd => simp [KeepsErrors, effect]
  | nop | ldcol | ldbri | eval | duty => exact ⟨rfl, rfl, rfl, rfl⟩

/-- R54: only UPD adds to the write history. -/
theorem writes_effect {i : Instr} (st : State) (hu : ∀ s, i ≠ .upd s) : (effect i st).writes = st.writes := by
  cases i with
  | upd => exact absurd rfl (hu _)
  | fade | setc => exact writes_fadeStrip ..
  | nop | ldcol | ldbri | eval | duty | rst => rfl

@[simp] theorem port_effect (i : Instr) (st : State) : (effect i st).port = st.port := by
  cases i with
  | fade | setc => exact port_fadeStrip ..
  | upd => exact port_updStrip ..
  | nop | ldcol | ldbri | eval | duty | rst => rfl

/-! ### What a command reads -/

theorem State.channel_congr {a b : State} (h : a.strips = b.strips) (s : StripId) (ch : Chan) :
    a.channel s ch = b.channel s ch := by
  rw [State.channel, State.channel, State.strip, State.strip, h]

theorem strips_fadeStrip (P : Params) (tm : FadeTiming) (s : StripId) (now tick : Word) (st : State) :
    (fadeStrip P tm s now tick st).strips = st.strips.set s ((st.strips.get s).fadePass P tm now tick) :=
  State.strips_setSettled ..

/-- The SETTLED that a pass writes depends on the strips before it only. -/
theorem settled_fadeStrip_congr (P : Params) (tm : FadeTiming) (s : StripId) (now tick : Word) {a b : State}
    (h : a.strips = b.strips) :
    (fadeStrip P tm s now tick a).status.settled s = (fadeStrip P tm s now tick b).status.settled s := by
  simp only [settled_fadeStrip_self, State.strip, h]

/-- The strips after a command depend on the strips before it only. -/
theorem strips_effect_congr (i : Instr) {a b : State} (h : a.strips = b.strips) :
    (effect i a).strips = (effect i b).strips := by
  cases i with
  | nop | eval | duty => exact h
  | ldcol | ldbri => simp only [effect, State.setChannel, State.setStrip, State.strip, State.channel, h]
  | fade | setc => simp only [effect, strips_fadeStrip, h]
  | upd s =>
    refine State.strips_ext (fun s' ch => ?_) fun s' => ?_
    · simp only [effect, channel_updStrip, State.channel_congr h]
    · rw [effect, effect, lastTick_updStrip, lastTick_updStrip, State.strip, State.strip, h]
  | rst => rfl

/-- The write history after a command depends on the strips and the history before it only. -/
theorem writes_effect_congr (i : Instr) {a b : State} (h : a.strips = b.strips) (hw : a.writes = b.writes) :
    (effect i a).writes = (effect i b).writes := by
  by_cases hu : ∃ s, i = .upd s
  · obtain ⟨s, rfl⟩ := hu
    simp only [effect, writes_updStrip, State.channel_congr h, hw]
  · rw [writes_effect a (not_exists.1 hu), writes_effect b (not_exists.1 hu), hw]

/-! ### RESULT -/

theorem weightQ_mem_unit (cv : Curve) {p : ℚ} (h0 : 0 ≤ p) (h1 : p ≤ 1) : 0 ≤ weightQ cv p ∧ weightQ cv p ≤ 1 := by
  have hzero : 0 ≤ weightQ cv 0 := by cases cv <;> norm_num [weightQ]
  have hone : weightQ cv 1 ≤ 1 := by cases cv <;> norm_num [weightQ]
  exact ⟨hzero.trans (weightQ_mono cv le_rfl h0 h1), (weightQ_mono cv h0 h1 le_rfl).trans hone⟩

/-- R109: the curve stays between its end points, at every percent. -/
theorem curveQ_mem_endpoints (cv : Curve) (p : ℚ) (a b : ℕ) :
    ((min a b : ℕ) : ℤ) ≤ curveQ cv p a b ∧ curveQ cv p a b ≤ (max a b : ℕ) := by
  cases cv with
  | none => simp [curveQ]
  | _ =>
    simp only [curveQ]
    generalize hq : min (max p 0) 1 = q
    have hq0 : 0 ≤ q := hq ▸ le_min (le_max_right p 0) zero_le_one
    have hq1 : q ≤ 1 := hq ▸ min_le_right ..
    obtain ⟨hw0, hw1⟩ := weightQ_mem_unit _ hq0 hq1
    have hseg := (convex_Icc ((min a b : ℕ) : ℚ) (max a b : ℕ)).lineMap_mem
      (x := (a : ℚ)) (y := (b : ℚ)) (by simp) (by simp) ⟨hw0, hw1⟩
    rw [AffineMap.lineMap_apply_ring', add_comm, mul_comm] at hseg
    refine ⟨Int.le_floor.2 (by exact_mod_cast hseg.1), Int.floor_le_iff.2 (lt_of_le_of_lt ?_ (lt_add_one _))⟩
    exact_mod_cast hseg.2

/-- The block's curve is the rational one (R107, R11). -/
theorem curve_block_eq (cv : Curve) (p : Frac) (a b : ℕ) :
    (curve Config.block cv p a b : ℤ) = curveQ cv p.toRat a b := by
  rw [curve_exact_floor _ rfl rfl]
  exact Int.toNat_of_nonneg ((Int.natCast_nonneg _).trans (curveQ_mem_endpoints ..).1)

theorem curve_block_lt (cv : Curve) (p : Frac) {a b n : ℕ} (ha : a < n) (hb : b < n) :
    curve Config.block cv p a b < n := by
  have h := (curveQ_mem_endpoints cv p.toRat a b).2
  rw [← curve_block_eq] at h
  exact (Int.ofNat_le.1 h).trans_lt (max_lt ha hb)

theorem toNat_ofNat_of_lt {w n : ℕ} (h : n < 2 ^ w) : (BitVec.ofNat w n).toNat = n :=
  (BitVec.toNat_ofNat n w).trans (Nat.mod_eq_of_lt h)

theorem toNat_zext32 {n : ℕ} (h : n < 4096) : (zext32 n).toNat = n :=
  toNat_ofNat_of_lt (h.trans (by decide))

/-- EVAL's result, as a number that fits 12 bits (R33, R110). -/
theorem toNat_evalCurve (cv : Curve) (a b : Bright) (e ft : Word) :
    (evalCurve Config.block cv a b e ft).toNat =
        curve Config.block cv (elapsedRatio .exact e ft) a.toNat b.toNat ∧
      (evalCurve Config.block cv a b e ft).toNat < 4096 := by
  have hlt := curve_block_lt cv (elapsedRatio .exact e ft) a.isLt b.isLt
  have heq := toNat_zext32 hlt
  exact ⟨heq, heq.trans_lt hlt⟩

end Sys2Proof.Machine
end

section
/-! PROOFS. The invariant of the block, conjunct by conjunct: each holds at reset and every command keeps it
(spec/10_state.md R30 to R34, spec/42_pwm.md R186). -/

namespace Sys2Proof.Machine

open Safety

/-! ### At reset -/

theorem channel_resetWith (P : Params) (s : StripId) (ch : Chan) :
    (State.resetWith P).channel s ch = Channel.reset P := by
  cases s <;> cases ch <;> rfl

theorem lastTick_resetWith (P : Params) (s : StripId) : ((State.resetWith P).strip s).lastTick = 0 := by
  cases s <;> rfl

theorem settled_resetState (P : Params) (st : State) (s : StripId) :
    (resetState P st).status.settled s = false := by
  cases s <;> rfl

/-- RST establishes the invariant from any state whose write history, which it keeps, is in order (R38, R55). -/
theorem inv_resetState (P : Params) {st : State} (hw : EventsOk st) : Inv (resetState P st) where
  errorLatch := ⟨fun _ => ⟨rfl, rfl, rfl⟩, fun h => absurd h Bool.false_ne_true⟩
  resultFits := Nat.zero_lt_succ _
  settledMirrors s := by
    simp only [settled_resetState, channel_resetState, Channel.reset, Bool.false_eq_true, false_iff]
    exact fun h => h .red
  shadowFresh s ch _ := by simp [Channel.reset]
  eventsOk := hw

/-! ### The error latch -/

theorem errorLatch_of_keepsErrors {st t : State} (h : ErrorLatch st) (hk : KeepsErrors st t) : ErrorLatch t := by
  obtain ⟨herr, hmerr, hcause, hfault⟩ := hk
  rw [ErrorLatch, herr, hmerr, hcause, hfault]
  exact h

theorem errorLatch_raiseIllegal {st : State} (h : ErrorLatch st) (k : Cause) (w : Word) :
    ErrorLatch (raiseIllegal k w st) := by
  cases he : st.status.err with
  | false =>
    rw [raiseIllegal_first he]
    exact ⟨fun hf => absurd hf Bool.true_eq_false_eq_False, fun _ => Cause.code_range k⟩
  | true =>
    rw [raiseIllegal_again he]
    exact ⟨fun hf => absurd (he.symm.trans hf) (by decide), h.2⟩

/-! ### SETTLED and the SET flags -/

/-- A command that leaves a strip's fade state and its SETTLED alone keeps the two in step. -/
theorem settled_iff_of_same {st t : State} {s : StripId}
    (h : st.status.settled s = true ↔ ∀ ch, (st.channel s ch).settled = true)
    (hs : t.status.settled s = st.status.settled s) (hf : SameFadeState (st.strip s) (t.strip s)) :
    t.status.settled s = true ↔ ∀ ch, (t.channel s ch).settled = true := by
  have hset : ∀ ch, (t.channel s ch).settled = (st.channel s ch).settled := fun ch => (hf.2 ch).2.2
  simpa only [hs, hset] using h

/-- R141: a pass writes SETTLED of its strip from the SET flags it leaves. -/
theorem settled_iff_fadeStrip (P : Params) (tm : FadeTiming) (s : StripId) (now tick : Word) (st : State) :
    (fadeStrip P tm s now tick st).status.settled s = true ↔
      ∀ ch, ((fadeStrip P tm s now tick st).channel s ch).settled = true := by
  rw [settled_fadeStrip_self, Strip.allSettled_iff]
  simp only [channel_fadeStrip, if_true]

theorem settledMirrors_effect {i : Instr} {st : State} (h : SettledMirrors st) (hr : i ≠ .rst) :
    SettledMirrors (effect i st) := by
  intro s
  by_cases hf : ∃ now tick, i = .fade s now tick
  · obtain ⟨now, tick, rfl⟩ := hf
    exact settled_iff_fadeStrip ..
  by_cases hs : ∃ now tick, i = .setc s now tick
  · obtain ⟨now, tick, rfl⟩ := hs
    exact settled_iff_fadeStrip ..
  simp only [not_exists] at hf hs
  exact settled_iff_of_same (h s) (settled_effect st s hf hs hr) (sameFadeState_effect st s hf hs hr)

/-! ### RESULT, the shadow and the events -/

theorem resultFits_effect {i : Instr} {st : State} (h : ResultFits st) (hr : i ≠ .rst) :
    ResultFits (effect i st) := by
  cases i with
  | eval cv a b e ft => exact (toNat_evalCurve cv a b e ft).2
  | duty c b => exact (toNat_zext32 (duty_lt c b)).trans_lt (duty_lt c b)
  | rst => exact absurd rfl hr
  | _ =>
    rw [ResultFits, result_effect st (by simp) (by simp) hr]
    exact h

/-- R182: after UPD every shadow of the strip is written; no other command but RST writes one. -/
theorem shadowFresh_effect {i : Instr} {st : State} (h : ShadowFresh st) (hr : i ≠ .rst) :
    ShadowFresh (effect i st) := by
  intro s ch hv
  by_cases hu : i = .upd s
  · subst hu
    simp [effect, channel_updStrip, Channel.markWritten] at hv
  · obtain ⟨hshv, hc, hb⟩ := keepsShadow_effect st s ch hu hr
    rw [hc, hb]
    exact h s ch (hshv ▸ hv)

/-- R58: the four registers of a channel have addresses of 8 bits. -/
theorem toNat_reg (P : Params) (s : StripId) (ch : Chan) {k : ℕ} (hk : k ≤ 3) :
    (BitVec.ofNat 8 ((P.regBase s ch).val + k)).toNat = (P.regBase s ch).val + k :=
  toNat_ofNat_of_lt (by have := (P.regBase s ch).isLt; omega)

/-- R186: the events of a channel write are events the block may emit. -/
theorem eventOk_of_mem_channelEvents {P : Params} {s : StripId} {ch : Chan} {d : ℕ} {e : BusWrite}
    (h : e ∈ channelEvents P s ch d) : EventOk P e := by
  have hon : phaseN ch / 256 < 256 := by cases ch <;> decide
  have hoff : (d + phaseN ch) % 4096 / 256 < 16 := by omega
  simp only [channelEvents, List.mem_cons, List.not_mem_nil, or_false] at h
  obtain rfl | rfl | rfl | rfl := h
  · exact ⟨rfl, s, ch, .inl ⟨toNat_reg P s ch (Nat.zero_le 3), toNat_ofNat_of_lt (Nat.mod_lt _ (by decide))⟩⟩
  · exact ⟨rfl, s, ch, .inr (.inl ⟨toNat_reg P s ch (by decide), toNat_ofNat_of_lt hon⟩)⟩
  · exact ⟨rfl, s, ch, .inr (.inr (.inl (toNat_reg P s ch (by decide))))⟩
  · refine ⟨rfl, s, ch, .inr (.inr (.inr ⟨toNat_reg P s ch le_rfl, ?_⟩))⟩
    exact (toNat_ofNat_of_lt (hoff.trans (by decide))).trans_lt hoff

theorem eventOk_of_mem_updEvents {P : Params} {s : StripId} {ch : Chan} {x : Channel} {e : BusWrite}
    (h : e ∈ updEvents P s ch x) : EventOk P e := by
  rw [updEvents_eq] at h
  split at h
  · exact eventOk_of_mem_channelEvents h
  · exact absurd h List.not_mem_nil

theorem eventsOk_effect {i : Instr} {st : State} (h : EventsOk st) : EventsOk (effect i st) := by
  intro e he
  by_cases hu : ∃ s, i = .upd s
  · obtain ⟨s, rfl⟩ := hu
    rw [effect, writes_updStrip, List.mem_append, List.mem_flatMap] at he
    obtain hold | ⟨ch, -, hnew⟩ := he
    · exact h e hold
    · exact eventOk_of_mem_updEvents hnew
  · rw [writes_effect st (not_exists.1 hu)] at he
    exact h e he

/-! ### The whole invariant -/

theorem inv_effect {st : State} (h : Inv st) (i : Instr) : Inv (effect i st) := by
  by_cases hr : i = .rst
  · subst hr
    exact inv_resetState _ h.eventsOk
  · exact ⟨errorLatch_of_keepsErrors h.errorLatch (keepsErrors_effect st hr), resultFits_effect h.resultFits hr,
      settledMirrors_effect h.settledMirrors hr, shadowFresh_effect h.shadowFresh hr, eventsOk_effect h.eventsOk⟩

/-- R212: recording an illegal command touches the error fields only. -/
theorem inv_raiseIllegal {st : State} (h : Inv st) (k : Cause) (w : Word) : Inv (raiseIllegal k w st) := by
  have hch := State.channel_congr (strips_raiseIllegal k w st)
  refine ⟨errorLatch_raiseIllegal h.errorLatch k w, ?_, fun s => ?_, fun s ch => ?_, ?_⟩
  · rw [ResultFits, result_raiseIllegal]
    exact h.resultFits
  · simpa only [settled_raiseIllegal, hch] using h.settledMirrors s
  · simpa only [hch] using h.shadowFresh s ch
  · rw [EventsOk, writes_raiseIllegal]
    exact h.eventsOk

/-- The invariant does not speak of the commands still presented. -/
theorem inv_withPort {st : State} (h : Inv st) (rest : List Command) : Inv { st with port := rest } :=
  ⟨h.errorLatch, h.resultFits, h.settledMirrors, h.shadowFresh, h.eventsOk⟩

end Sys2Proof.Machine

namespace Sys2Proof.Proofs

open Sys2Proof.Machine Sys2Proof.Safety

/-- Settles O55: of the three things a step can do, being idle changes nothing, and both a command's effect and the
recording of an illegal command keep every conjunct. -/
theorem stepKeepsInvariant : Obligations.StepKeepsInvariant := by
  intro st t hinv hstep
  obtain ⟨-, rfl⟩ | ⟨c, rest, i, -, -, hexec⟩ | ⟨c, rest, k, -, -, rfl⟩ := step_cases hstep
  · exact hinv
  · obtain rfl := eq_effect_of_exec hexec
    exact inv_effect (inv_withPort hinv rest) i
  · exact inv_raiseIllegal (inv_withPort hinv rest) k c.w0

/-- Settles O56: the reset state is what RST makes of itself, and it has written nothing. -/
theorem resetMeetsInvariant : Obligations.ResetMeetsInvariant :=
  inv_resetState (st := State.reset) Config.block fun _ h => absurd h List.not_mem_nil

end Sys2Proof.Proofs
end

section
/-! PROOFS. The reset, the outputs, and the access table of the state (spec/10_state.md R32 to R38). -/

namespace Sys2Proof

/-! ### Commands without operands -/

theorem decode_of_op {c : Command} {op : Opcode} (h : c.op = op.code) :
    decode c = if reservedBitsSet op c then .error .reservedBits else decodeFields op c := by
  rw [decode, h, Opcode.ofCode_code]

/-- A row that fixes all 128 bits leaves its opcode one command without reserved bits: the row's pattern (R79, R82). -/
theorem not_reservedBitsSet_iff_of_full_row {r : TableRow} (hr : r ∈ opcodeTable) (hmask : r.mask = 0xFFFFFFFF#32)
    (h1 : r.zero1 = 0xFFFFFFFF#32) (h2 : r.zero2 = 0xFFFFFFFF#32) (h3 : r.zero3 = 0xFFFFFFFF#32) {c : Command}
    (hop : c.op = r.op.code) : reservedBitsSet r.op c = false ↔ c = ⟨r.pattern, 0, 0, 0⟩ := by
  have h := row_bits_eq_not_reserved r hr c hop
  simp only [TableRow.fixedBits, TableRow.zeroWords, hmask, h1, h2, h3, and_allOnes32] at h
  rw [← Bool.not_eq_true', ← h]
  obtain ⟨w0, w1, w2, w3⟩ := c
  simp [and_assoc]

/-- Only opcode 0xF names RST (R77). -/
theorem decodeFields_eq_rst {op : Opcode} {c : Command} (h : decodeFields op c = .ok .rst) : op = .rst := by
  cases op with
  | rst => rfl
  | ldcol | ldbri =>
    simp only [decodeFields, decodeChanCurve] at h
    split at h
    · cases h
    · split at h <;> cases h
  | eval =>
    simp only [decodeFields, decodeCurve] at h
    split at h <;> cases h
  | nop | fade | setc | upd | duty => cases h

/-- With RST's opcode, its one legal encoding resets and every other command is RESERVED_BITS (R201). -/
theorem decode_of_rst_op {c : Command} (hop : c.op = Opcode.rst.code) :
    decode c = if c = ⟨0xF0000000, 0, 0, 0⟩ then .ok .rst else .error .reservedBits := by
  have hiff : reservedBitsSet .rst c = false ↔ c = ⟨0xF0000000, 0, 0, 0⟩ :=
    not_reservedBitsSet_iff_of_full_row (r := opcodeTable[8]) (by decide) rfl rfl rfl rfl hop
  rw [decode_of_op hop]
  by_cases hc : c = ⟨0xF0000000, 0, 0, 0⟩
  · rw [if_pos hc, if_neg (Bool.eq_false_iff.1 (hiff.2 hc))]
    rfl
  · rw [if_neg hc, if_pos (Bool.of_not_eq_false (mt hiff.1 hc))]

theorem op_of_decode_eq_rst {c : Command} (h : decode c = .ok .rst) : c.op = Opcode.rst.code := by
  unfold decode at h
  split at h
  · cases h
  · rename_i op hop
    split at h
    · cases h
    · rw [← Opcode.ofCode_eq_some.1 hop, decodeFields_eq_rst h]

theorem decode_eq_rst_iff (c : Command) : decode c = .ok .rst ↔ c = ⟨0xF0000000, 0, 0, 0⟩ := by
  constructor
  · intro h
    rw [decode_of_rst_op (op_of_decode_eq_rst h)] at h
    split at h
    · assumption
    · cases h
  · rintro rfl
    rfl

end Sys2Proof

namespace Sys2Proof.Machine

/-- R32: STATUS as a word is the sum of its fields at their places. -/
theorem Status.toNat_toWord (x : Status) :
    x.toWord.toNat =
      x.settled0.toNat + 2 * x.settled1.toNat + 4 * x.err.toNat + 8 * x.merr.toNat + 16 * x.cause.toNat := by
  have hbit : ∀ b : Bool, b.toNat < 2 ^ 1 := Bool.toNat_lt
  simp only [Status.toWord, BitVec.toNat_append, BitVec.toNat_ofNat, BitVec.toNat_ofBool, Nat.zero_mod,
    Nat.zero_shiftLeft, Nat.zero_or]
  rw [← Nat.shiftLeft_add_eq_or_of_lt (hbit _), ← Nat.shiftLeft_add_eq_or_of_lt (hbit _),
    ← Nat.shiftLeft_add_eq_or_of_lt (hbit _), ← Nat.shiftLeft_add_eq_or_of_lt (hbit _)]
  simp only [Nat.shiftLeft_eq]
  omega

theorem Status.toWord_reset : Status.reset.toWord = 0 := by decide

end Sys2Proof.Machine

namespace Sys2Proof.Proofs

open Sys2Proof.Machine Sys2Proof.Safety

/-- Settles O13: every channel and every output of `State.resetWith` at R38's values. -/
theorem resetValues : Obligations.ResetValues := by
  refine ⟨fun P => ⟨fun s ch => ?_, lastTick_resetWith P, Status.toWord_reset, rfl, rfl⟩, fun s ch => ?_, rfl⟩
  · exact channel_resetWith P s ch
  · rw [State.reset, channel_resetWith]
    rfl

/-- Settles O16: `resetState` by its reset values and its frame, and the one command that decodes to RST. -/
theorem rstResetsTheBlock : Obligations.RstResetsTheBlock := by
  refine ⟨fun st => ⟨resetState Config.block st, rfl, lastTick_resetWith _, fun s ch => ?_,
    Status.toWord_reset, rfl, rfl, rfl, rfl, rfl⟩, decode_eq_rst_iff, fun c hop hc => ?_⟩
  · exact channel_resetState Config.block st s ch
  · rw [← op_toNat] at hop
    rw [decode_of_rst_op (BitVec.eq_of_toNat_eq hop), if_neg hc]

/-- Settles O20: the block's curve is the rational formula, and stays within 12 bits. -/
theorem evalWritesCurveResult : Obligations.EvalWritesCurveResult := by
  intro cv a b e ft st
  obtain ⟨hval, hlt⟩ := toNat_evalCurve cv a b e ft
  refine ⟨st.setResult (evalCurve Config.block cv a b e ft), rfl, ?_, hlt, rfl, rfl, rfl, rfl, rfl⟩
  rw [State.result_setResult, hval, curve_block_eq, toRat_elapsedRatio_exact]

/-- Settles O44: the duty fits 12 bits, so that its zero extension keeps its value. -/
theorem dutyWritesResult : Obligations.DutyWritesResult := by
  intro c b st
  refine ⟨st.setResult (zext32 (duty c b)), rfl, ?_, rfl, rfl, rfl, rfl, rfl⟩
  rw [State.result_setResult, toNat_zext32 (duty_lt c b)]
  split
  · exact if_pos ‹_›
  · exact if_neg ‹_›

/-- Settles O49, by the width of each field of STATUS. -/
theorem statusWordLayout : Obligations.StatusWordLayout := fun st => st.status.toNat_toWord

/-- Settles O50: the access table of R36, each line by the rule of its element. -/
theorem onlyListedCommandsWrite : Obligations.OnlyListedCommandsWrite := by
  intro st t c rest hport hstep
  cases hd : decode c with
  | error k =>
    rw [step_of_decode_error hport hd] at hstep
    obtain rfl := Host.Outcome.next.inj hstep
    exact ⟨strips_raiseIllegal .., settled_raiseIllegal _ _ _ .s0, settled_raiseIllegal _ _ _ .s1,
      result_raiseIllegal .., writes_raiseIllegal ..⟩
  | ok i =>
    rw [step_of_decode_ok hport hd] at hstep
    obtain rfl := eq_effect_of_exec hstep
    exact ⟨fun s hf hs hr => ⟨sameFadeState_effect _ s hf hs hr, settled_effect _ s hf hs hr⟩,
      fun s ch => sameStaging_color_effect _ s ch, fun s ch => sameStaging_bright_effect _ s ch,
      fun s hu hr ch => keepsShadow_effect _ s ch hu hr, result_effect _, keepsErrors_effect _,
      fun hnop => by rw [hnop, effect]⟩

/-- Settles O51: strips and write history follow from strips and write history alone, and the outputs a command writes
are computed from the strips and its operands. -/
theorem outputsAreNeverRead : Obligations.OutputsAreNeverRead := by
  intro i st x r f
  refine ⟨_, _, exec_eq_effect i st, exec_eq_effect i _, strips_effect_congr i rfl,
    ⟨writes_effect_congr i rfl rfl, (port_effect i _).trans (port_effect i st).symm⟩, ?_⟩
  cases i with
  | fade | setc =>
    exact ⟨settled_fadeStrip_congr _ _ _ _ _ rfl,
      fun _ hne => settled_fadeStrip_ne _ _ _ _ _ hne, keepsErrors_fadeStrip .., result_fadeStrip ..⟩
  | upd => exact ⟨status_updStrip .., result_updStrip .., faultW0_updStrip ..⟩
  | nop | ldcol | ldbri | eval | duty | rst => exact ⟨rfl, rfl, rfl⟩

end Sys2Proof.Proofs
end

section
/-! PROOFS. The write history and the command port (spec/20_memory.md): what UPD appends, which channels it skips, and
the step on a placed command and on an empty port. -/

namespace Sys2Proof

theorem decodeTableWord_eq_some {nbits w : ℕ} {i : Instr} :
    decodeTableWord nbits w = some i ↔ decode (Command.ofBits nbits w) = .ok i := by
  unfold decodeTableWord
  cases decode (Command.ofBits nbits w) <;> simp

end Sys2Proof

namespace Sys2Proof.Machine

/-! ### Which channels UPD writes -/

/-- R183: a channel is written when its shadow holds no pair or another one. -/
theorem Channel.changed_iff (x : Channel) :
    x.changed = true ↔ x.shv = false ∨ x.shC ≠ x.color.cur ∨ x.shB ≠ x.bright.cur := by
  simp [Channel.changed, or_assoc]

@[simp] theorem Channel.changed_markWritten (x : Channel) : x.markWritten.changed = false :=
  x.markWritten.not_changed_iff.2 ⟨rfl, rfl, rfl⟩

/-- R60: UPD passes over a channel whose pair is the one last written. -/
theorem updChannel_of_not_changed (P : Params) {s : StripId} {st : State} {ch : Chan}
    (h : (st.channel s ch).changed = false) : updChannel P s st ch = st := by
  simp [updChannel, h]

theorem updStrip_of_not_changed (P : Params) {s : StripId} {st : State}
    (h : ∀ ch, (st.channel s ch).changed = false) : updStrip P s st = st :=
  List.foldl_fixed' (fun ch => updChannel_of_not_changed P (h ch)) _

/-- R185: after UPD every channel of the strip has its pair in the shadow, so that another UPD finds nothing to do. -/
theorem updStrip_updStrip (P : Params) (s : StripId) (st : State) :
    updStrip P s (updStrip P s st) = updStrip P s st :=
  updStrip_of_not_changed P fun ch => by simp [channel_updStrip]

/-! ### How much a command writes -/

theorem length_updEvents_le (P : Params) (s : StripId) (ch : Chan) (x : Channel) :
    (updEvents P s ch x).length ≤ 4 := by
  unfold updEvents
  split
  · exact le_rfl
  · exact Nat.zero_le 4

/-- Five channels of at most four events each (R184). -/
theorem length_flatMap_updEvents_le (P : Params) (s : StripId) (st : State) :
    (allChans.flatMap fun ch => updEvents P s ch (st.channel s ch)).length ≤ 20 := by
  have h4 : ∀ n ∈ allChans.map fun ch => (updEvents P s ch (st.channel s ch)).length, n ≤ 4 :=
    List.forall_mem_map.2 fun _ _ => length_updEvents_le ..
  rw [List.length_flatMap]
  simpa [allChans] using List.sum_le_card_nsmul _ 4 h4

/-- R54, R55: a command appends at most 20 events to the write history, and none unless it is UPD. -/
theorem writes_effect_append (i : Instr) (st : State) :
    ∃ ws : List BusWrite, (effect i st).writes = st.writes ++ ws ∧ ws.length ≤ 20 ∧
      ((∀ s, i ≠ .upd s) → ws = []) := by
  by_cases hu : ∃ s, i = .upd s
  · obtain ⟨s, rfl⟩ := hu
    exact ⟨_, writes_updStrip .., length_flatMap_updEvents_le .., fun h => absurd rfl (h s)⟩
  · exact ⟨[], by rw [writes_effect st (not_exists.1 hu), List.append_nil], Nat.zero_le 20, fun _ => rfl⟩

/-! ### The command port -/

/-- R227: with an empty port a step holds the state. -/
theorem step_of_port_nil {s : State} (h : s.port = []) : step s = .next s := by
  simp only [step, State.takeCommand_nil h]

/-- The step from a state with a word placed next runs what the word decodes to, on the state without it. -/
theorem step_withFetchWord {s : State} {nbits w : ℕ} {i : Instr} (h : decode (Command.ofBits nbits w) = .ok i) :
    step (s.withFetchWord nbits w) = exec i s :=
  step_of_decode_ok (s := s.withFetchWord nbits w) rfl h

end Sys2Proof.Machine

namespace Sys2Proof.Proofs

open Sys2Proof.Machine

/-- Settles O45: the events channel by channel, the shadow that each channel's turn leaves, and UPD's frame. -/
theorem updWritesChangedChannels : Obligations.UpdWritesChangedChannels := by
  intro s st
  refine ⟨updStrip Config.block s st, rfl, ?_, fun ch => ?_, lastTick_updStrip .., fun s' hs => ?_,
    status_updStrip .., result_updStrip .., faultW0_updStrip .., port_updStrip ..⟩
  · simp only [writes_updStrip, allChans, updEvents_eq, Channel.changed_iff]
  · rw [channel_updStrip, if_pos rfl]
    exact ⟨rfl, rfl, rfl, rfl, rfl, rfl⟩
  · exact Strip.ext_channel (lastTick_updStrip ..) fun ch => (channel_updStrip ..).trans (if_neg hs)

/-- Settles O46: UPD of a strip is idempotent. -/
theorem updTwiceWritesOnce : Obligations.UpdTwiceWritesOnce :=
  fun s st => ⟨updStrip Config.block s st, rfl, congrArg Host.Outcome.next (updStrip_updStrip Config.block s st)⟩

/-- Settles O54: an idle step and an illegal command append nothing, and a command what `writes_effect_append` says. -/
theorem writeHistoryOnlyGrows : Obligations.WriteHistoryOnlyGrows := by
  intro st t hstep
  obtain ⟨-, rfl⟩ | ⟨c, rest, i, hport, hdec, hexec⟩ | ⟨c, rest, k, -, -, rfl⟩ := step_cases hstep
  · exact ⟨[], (List.append_nil _).symm, Nat.zero_le 20, fun _ => rfl⟩
  · obtain rfl := eq_effect_of_exec hexec
    obtain ⟨ws, hws, hlen, hnone⟩ := writes_effect_append i { st with port := rest }
    refine ⟨ws, hws, hlen, fun hne => hnone fun s hi => ?_⟩
    exact hne c rest s hport (hi ▸ hdec)
  · exact ⟨[], (writes_raiseIllegal ..).trans (List.append_nil _).symm, Nat.zero_le 20, fun _ => rfl⟩

/-- Settles O9: the placed word is the next command, and taking it gives back the original port. -/
theorem fetchWordRuns : Obligations.FetchWordRuns :=
  fun _ _ _ _ h => step_withFetchWord (decodeTableWord_eq_some.1 h)

/-- Settles O14: the reset state has an empty port, on which the step is idle. -/
theorem resetIsIdle : Obligations.ResetIsIdle := ⟨rfl, rfl, step_of_port_nil rfl⟩

end Sys2Proof.Proofs
end

section
/-! PROOFS. The decoder and the encoder (spec/30_encoding.md): the decoder's checks in order, the rows of the opcode
table against them, and decoding and encoding as inverses of each other. -/

namespace Sys2Proof

/-! ### The decoder's checks, in order (R82) -/

theorem decode_eq_ok_iff {c : Command} {i : Instr} :
    decode c = .ok i ↔ ∃ op : Opcode, c.op = op.code ∧ reservedBitsSet op c = false ∧ decodeFields op c = .ok i := by
  constructor
  · intro h
    unfold decode at h
    split at h
    · cases h
    · next op hop =>
      split at h
      · cases h
      · next hbits => exact ⟨op, (Opcode.ofCode_eq_some.1 hop).symm, Bool.eq_false_iff.2 hbits, h⟩
  · rintro ⟨op, hop, hbits, h⟩
    rw [decode_of_op hop, hbits]
    exact h

theorem reservedBitsSet_eq_false_iff {op : Opcode} {c : Command} :
    reservedBitsSet op c = false ↔
      c.w0 &&& ~~~(usedMasks op).w0 = 0 ∧ c.w1 &&& ~~~(usedMasks op).w1 = 0 ∧
      c.w2 &&& ~~~(usedMasks op).w2 = 0 ∧ c.w3 &&& ~~~(usedMasks op).w3 = 0 := by
  simp [reservedBitsSet, and_assoc]

theorem decodeChanCurve_eq_ok_iff {c : Command} {k : Chan → Curve → Instr} {i : Instr} :
    decodeChanCurve c k = .ok i ↔ ∃ ch cv, ch.code = c.chanField ∧ cv.code = c.curveField ∧ k ch cv = i := by
  simp only [← Chan.ofCode_eq_some, ← Curve.ofCode_eq_some, decodeChanCurve]
  cases Chan.ofCode c.chanField <;> cases Curve.ofCode c.curveField <;> simp

theorem decodeCurve_eq_ok_iff {c : Command} {k : Curve → Instr} {i : Instr} :
    decodeCurve c k = .ok i ↔ ∃ cv, cv.code = c.curveField ∧ k cv = i := by
  simp only [← Curve.ofCode_eq_some, decodeCurve]
  cases Curve.ofCode c.curveField <;> simp

/-! ### The rows of the opcode table -/

theorem exists_row (op : Opcode) : ∃ r ∈ opcodeTable, r.op = op := by
  cases op <;> decide

/-- R79: the upper four bits of a row's pattern are its opcode. -/
theorem toNat_code_row {r : TableRow} (hr : r ∈ opcodeTable) : r.op.code.toNat = r.pattern.toNat / 2 ^ 28 := by
  revert r
  decide

theorem hasChan_row {r : TableRow} (hr : r ∈ opcodeTable) : r.hasChan = decide (r.op ∈ [.ldcol, .ldbri]) := by
  revert r
  decide

theorem hasCurve_row {r : TableRow} (hr : r ∈ opcodeTable) : r.hasCurve = decide (r.op ∈ [.ldcol, .ldbri, .eval]) := by
  revert r
  decide

theorem decode_of_row {r : TableRow} (hr : r ∈ opcodeTable) {c : Command} (hop : c.op = r.op.code) :
    decode c = if (r.fixedBits c && r.zeroWords c) = false then .error .reservedBits else decodeFields r.op c := by
  rw [decode_of_op hop, row_bits_eq_not_reserved r hr c hop]
  simp

theorem TableRow.chanOk_eq_isSome {r : TableRow} (h : r.hasChan = true) (c : Command) :
    r.chanOk c = (Chan.ofCode c.chanField).isSome := by
  rw [Bool.eq_iff_iff, chanOk_iff, Option.isSome_iff_exists]
  exact forall_prop_of_true h

theorem TableRow.curveOk_eq_isSome {r : TableRow} (h : r.hasCurve = true) (c : Command) :
    r.curveOk c = (Curve.ofCode c.curveField).isSome := by
  rw [Bool.eq_iff_iff, curveOk_iff, Option.isSome_iff_exists]
  exact forall_prop_of_true h

/-- R217: the channel check comes before the curve check. -/
theorem decodeChanCurve_first_cause {r : TableRow} (hchan : r.hasChan = true) (hcurve : r.hasCurve = true)
    (c : Command) (k : Chan → Curve → Instr) :
    if r.chanOk c = false then decodeChanCurve c k = .error .badChannel
    else if r.curveOk c = false then decodeChanCurve c k = .error .badCurve
    else ∃ i, decodeChanCurve c k = .ok i := by
  rw [TableRow.chanOk_eq_isSome hchan, TableRow.curveOk_eq_isSome hcurve, decodeChanCurve]
  cases Chan.ofCode c.chanField <;> cases Curve.ofCode c.curveField <;> simp

theorem decodeCurve_first_cause {r : TableRow} (hcurve : r.hasCurve = true) (c : Command) (k : Curve → Instr) :
    if r.curveOk c = false then decodeCurve c k = .error .badCurve else ∃ i, decodeCurve c k = .ok i := by
  rw [TableRow.curveOk_eq_isSome hcurve, decodeCurve]
  cases Curve.ofCode c.curveField <;> simp

/-- R82: after the reserved bits come the row's channel field and then its curve field, where it has them. -/
theorem decodeFields_first_cause {r : TableRow} (hr : r ∈ opcodeTable) (c : Command) :
    if r.chanOk c = false then decodeFields r.op c = .error .badChannel
    else if r.curveOk c = false then decodeFields r.op c = .error .badCurve
    else ∃ i, decodeFields r.op c = .ok i := by
  have hchan := hasChan_row hr
  have hcurve := hasCurve_row hr
  cases hop : r.op with
  | ldcol | ldbri =>
    rw [hop] at hchan hcurve
    exact decodeChanCurve_first_cause hchan hcurve c _
  | eval =>
    rw [hop] at hchan hcurve
    have hok : r.chanOk c = true := by rw [TableRow.chanOk, hchan]; rfl
    rw [hok]
    exact decodeCurve_first_cause hcurve c _
  | nop | fade | setc | upd | duty | rst => simp [TableRow.chanOk, TableRow.curveOk, hchan, hcurve, hop, decodeFields]

/-- With a row's opcode, a command decodes exactly when the row accepts it (R80). -/
theorem exists_decode_iff_accepts {r : TableRow} (hr : r ∈ opcodeTable) {c : Command} (hop : c.op = r.op.code) :
    (∃ i, decode c = .ok i) ↔ r.accepts c = true := by
  have hfields := decodeFields_first_cause hr c
  rw [decode_of_row hr hop, TableRow.accepts]
  split_ifs at hfields ⊢ <;> simp_all

/-- Every opcode has its row, and a row's fixed bits fix its opcode, so that no other row is in question (R80). -/
theorem exists_decode_iff_wellFormed {c : Command} : (∃ i, decode c = .ok i) ↔ c.wellFormed = true := by
  constructor
  · rintro ⟨i, hi⟩
    obtain ⟨op, hop, -, -⟩ := decode_eq_ok_iff.1 hi
    obtain ⟨r, hr, rfl⟩ := exists_row op
    exact List.any_eq_true.2 ⟨r, hr, (exists_decode_iff_accepts hr hop).1 ⟨i, hi⟩⟩
  · intro hwf
    obtain ⟨r, hr, hacc⟩ := List.any_eq_true.1 hwf
    have hchecks := hacc
    simp only [TableRow.accepts, Bool.and_eq_true] at hchecks
    obtain ⟨⟨⟨hfixed, -⟩, -⟩, -⟩ := hchecks
    exact (exists_decode_iff_accepts hr (op_of_fixedBits r hr c hfixed)).2 hacc

/-! ### The words of an instruction -/

/-- The opcode of an instruction (R78). -/
def Instr.opcode : Instr → Opcode
  | .nop => .nop
  | .ldcol .. => .ldcol
  | .ldbri .. => .ldbri
  | .fade .. => .fade
  | .setc .. => .setc
  | .upd .. => .upd
  | .eval .. => .eval
  | .duty .. => .duty
  | .rst => .rst

theorem op_encode (i : Instr) : (encode i).op = i.opcode.code := by
  cases i <;> exact packW0_op ..

theorem encode_wellFormed (i : Instr) : (encode i).wellFormed = true := by
  cases i with
  | nop => exact Laws.EncodeWellFormed.nop
  | ldcol s ch cv color ft => exact Laws.EncodeWellFormed.ldcol s ch cv color ft
  | ldbri s ch cv bright ft => exact Laws.EncodeWellFormed.ldbri s ch cv bright ft
  | fade s now tick => exact Laws.EncodeWellFormed.fade s now tick
  | setc s now tick => exact Laws.EncodeWellFormed.setc s now tick
  | upd s => exact Laws.EncodeWellFormed.upd s
  | eval cv start stop elapsed ft => exact Laws.EncodeWellFormed.eval cv start stop elapsed ft
  | duty color bright => exact Laws.EncodeWellFormed.duty color bright
  | rst => exact Laws.EncodeWellFormed.rst

theorem decodeFields_encode (i : Instr) : decodeFields i.opcode (encode i) = .ok i := by
  cases i <;>
    simp [decodeFields, Instr.opcode, encode, decodeChanCurve, decodeCurve, Command.stripField, Command.chanField,
      Command.curveField, Command.val, Command.valColor, Command.endVal, Command.dutyColor, packW0_strip, packW0_chan,
      packW0_curve, packW0_val, packW0_valColor, bright_low_setWidth, color_low_setWidth]

theorem Opcode.code_injective : Function.Injective Opcode.code := fun a b h => by
  simpa using congrArg Opcode.ofCode h

/-- The words of an instruction are well formed, so that they decode, and by the opcode they carry to nothing else. -/
theorem decode_encode (i : Instr) : decode (encode i) = .ok i := by
  obtain ⟨j, hj⟩ := exists_decode_iff_wellFormed.2 (encode_wellFormed i)
  obtain ⟨op, hop, hbits, -⟩ := decode_eq_ok_iff.1 hj
  obtain rfl : op = i.opcode := Opcode.code_injective (hop.symm.trans (op_encode i))
  exact decode_eq_ok_iff.2 ⟨i.opcode, hop, hbits, decodeFields_encode i⟩

/-- A word without bits outside a mask is its own part under the mask. -/
theorem and_eq_self_of_and_not_eq_zero {w : Nat} {x m : BitVec w} (h : x &&& ~~~m = 0) : x &&& m = x :=
  calc x &&& m = x &&& m ||| x &&& ~~~m := by rw [h]; simp
    _ = x := by rw [← BitVec.and_or_distrib_left, BitVec.or_not_self, BitVec.and_allOnes]

/-- With this rewrite rule `simp` drops a literal mask that names every bit. -/
theorem and_eq_self_of_eq_allOnes {w : Nat} {x m : BitVec w} (h : m = BitVec.allOnes w) : x &&& m = x := by
  rw [h, BitVec.and_allOnes]

/-- Without reserved bits, W0 is its opcode and its fields, each under the mask of what the opcode uses (R71, R82). -/
theorem packW0_used_fields {c : Command} {op : Opcode} (hop : c.op = op.code)
    (h0 : c.w0 &&& ~~~(usedMasks op).w0 = 0) :
    packW0 op (c.stripField &&& (usedMasks op).w0.extractLsb' 23 1) (c.chanField &&& (usedMasks op).w0.extractLsb' 20 3)
      (c.curveField &&& (usedMasks op).w0.extractLsb' 16 3) (c.val &&& (usedMasks op).w0.extractLsb' 0 12) = c.w0 := by
  have hpack : packW0 op c.stripField c.chanField c.curveField c.val = c.w0 :=
    packW0_fields hop.symm (and_eq_zero_of_submask h0 (by cases op <;> decide))
  have hcode : op.code &&& (usedMasks op).w0.extractLsb' 28 4 = op.code := by cases op <;> decide
  have hand := packW0_and op c.stripField c.chanField c.curveField c.val (usedMasks op).w0
  rw [hpack, and_eq_self_of_and_not_eq_zero h0, hcode] at hand
  exact hand.symm

theorem Command.eq_mk_iff {w0 w1 w2 w3 : Word} {c : Command} :
    c = ⟨w0, w1, w2, w3⟩ ↔ c.w0 = w0 ∧ c.w1 = w1 ∧ c.w2 = w2 ∧ c.w3 = w3 := by
  cases c
  simp only [Command.mk.injEq]

/-- The words of what a command decodes to are the command's: W0 by the fields its opcode uses, the others 0 where its
opcode uses no bit of them (R80, R81). -/
theorem encode_of_decodeFields {c : Command} {op : Opcode} {i : Instr} (hop : c.op = op.code)
    (hbits : reservedBitsSet op c = false) (h : decodeFields op c = .ok i) : encode i = c := by
  obtain ⟨h0, h1, h2, h3⟩ := reservedBitsSet_eq_false_iff.1 hbits
  have hw0 := (packW0_used_fields hop h0).symm
  cases op with
  | ldcol =>
    obtain ⟨ch, cv, hch, hcv, rfl⟩ := decodeChanCurve_eq_ok_iff.1 h
    have hval : c.valColor.setWidth 12 = c.val := setWidth_color_val (and_eq_zero_of_submask h0 (by decide))
    have hmask : c.val &&& 0x0FF#12 = c.val := hval ▸ and_eq_self_of_and_not_eq_zero (color_and_high12 _)
    refine (Command.eq_mk_iff.2 ?_).symm
    simpa [usedMasks, and_eq_self_of_eq_allOnes, hch, hcv, hval, hmask] using And.intro hw0 (And.intro h2 h3)
  | ldbri =>
    obtain ⟨ch, cv, hch, hcv, rfl⟩ := decodeChanCurve_eq_ok_iff.1 h
    refine (Command.eq_mk_iff.2 ?_).symm
    simpa [usedMasks, and_eq_self_of_eq_allOnes, hch, hcv] using And.intro hw0 (And.intro h2 h3)
  | eval =>
    obtain ⟨cv, hcv, rfl⟩ := decodeCurve_eq_ok_iff.1 h
    refine (Command.eq_mk_iff.2 ?_).symm
    have hend : c.endVal.setWidth 32 = c.w1 := setWidth_low12 h1
    simpa [usedMasks, and_eq_self_of_eq_allOnes, hcv, hend] using hw0
  | duty =>
    obtain rfl := Except.ok.inj h
    refine (Command.eq_mk_iff.2 ?_).symm
    have hcolor : c.dutyColor.setWidth 32 = c.w1 := setWidth_low8 h1
    simpa [usedMasks, and_eq_self_of_eq_allOnes, hcolor] using And.intro hw0 (And.intro h2 h3)
  | nop | fade | setc | upd | rst =>
    obtain rfl := Except.ok.inj h
    refine (Command.eq_mk_iff.2 ?_).symm
    simpa [usedMasks, and_eq_self_of_eq_allOnes] using And.intro hw0 (And.intro h1 (And.intro h2 h3))

end Sys2Proof

namespace Sys2Proof.Proofs

open Sys2Proof.Machine

/-- Settles O1, by `decode_encode`. -/
theorem decodeOfEncode : Obligations.DecodeOfEncode := decode_encode

/-- Settles O2: what decodes has no reserved bit, and is then its instruction's fields packed. -/
theorem encodeOfDecode : Obligations.EncodeOfDecode := by
  intro c i h
  obtain ⟨op, hop, hbits, hfields⟩ := decode_eq_ok_iff.1 h
  exact encode_of_decodeFields hop hbits hfields

/-- Settles O3, by `exists_decode_iff_wellFormed`. -/
theorem decodeAcceptsWellFormed : Obligations.DecodeAcceptsWellFormed := fun _ => exists_decode_iff_wellFormed

/-- Settles O4: the opcode check, then the row's fixed and zero bits, then its fields. -/
theorem decodeNamesFirstCause : Obligations.DecodeNamesFirstCause := by
  intro c
  refine ⟨fun hop => ?_, fun r hr hop => ?_⟩
  · rw [← op_toNat] at hop
    rw [decode, Opcode.ofCode_eq_none.2 hop]
  · rw [← toNat_code_row hr, ← op_toNat] at hop
    rw [decode_of_row hr (BitVec.eq_of_toNat_eq hop.symm)]
    by_cases hbits : (r.fixedBits c && r.zeroWords c) = false
    · rw [if_pos hbits, if_pos hbits]
    · simp only [if_neg hbits]
      exact decodeFields_first_cause hr c

/-- Settles O5: the nine encodings evaluated; that each decodes follows from O1. -/
theorem sampleWordsDecode : Obligations.SampleWordsDecode := by
  intro p hp
  have henc : encode p.2 = p.1 := by
    revert p
    decide
  exact ⟨henc ▸ decode_encode p.2, henc⟩

/-- Settles O12: with an empty port, with a command that decodes, and with an illegal one. -/
theorem stepAlwaysAnswersNext : Obligations.StepAlwaysAnswersNext := by
  intro s
  cases hport : s.port with
  | nil => exact ⟨s, step_of_port_nil hport⟩
  | cons c rest =>
    cases hdec : decode c with
    | ok i => exact ⟨_, (step_of_decode_ok hport hdec).trans (exec_eq_effect i _)⟩
    | error k => exact ⟨_, step_of_decode_error hport hdec⟩

end Sys2Proof.Proofs
end

section
/-! PROOFS. The assembler (spec/30_encoding.md R83): which lines it refuses and where it places the operands of the
others; and what the pseudo-instruction LDBLACK makes of the state (R84). -/

namespace Sys2Proof.Machine

open Safety

/-! ### Assembler lines (R83) -/

/-- Every operand of the line fits its field (R83). -/
def AsmLine.Fits : AsmLine → Prop
  | .nop | .rst => True
  | .ldcol s ch cv color ft => s < 2 ∧ ch < 5 ∧ cv < 5 ∧ color < 256 ∧ ft < 2 ^ 32
  | .ldbri s ch cv bright ft => s < 2 ∧ ch < 5 ∧ cv < 5 ∧ bright < 4096 ∧ ft < 2 ^ 32
  | .fade s now tick | .setc s now tick => s < 2 ∧ now < 2 ^ 32 ∧ tick < 2 ^ 32
  | .upd s => s < 2
  | .eval cv start stop elapsed ft => cv < 5 ∧ start < 4096 ∧ stop < 4096 ∧ elapsed < 2 ^ 32 ∧ ft < 2 ^ 32
  | .duty color bright => color < 256 ∧ bright < 4096

theorem exists_asmField {w n : Nat} (h : n < 2 ^ w) : ∃ b : BitVec w, asmField w n = some b ∧ b.toNat = n :=
  ⟨BitVec.ofNat w n, asmField_of_lt h, (BitVec.toNat_ofNat ..).trans (Nat.mod_eq_of_lt h)⟩

theorem lt_of_asmField {w n : Nat} {b : BitVec w} (h : asmField w n = some b) : n < 2 ^ w := by
  by_contra hn
  simp [asmField_of_not_lt hn] at h

theorem lt_of_asmStrip {n : Nat} {s : StripId} (h : asmStrip n = some s) : n < 2 := by
  by_contra hn
  simp [asmStrip_of_not_lt hn] at h

theorem lt_of_asmChan {n : Nat} {ch : Chan} (h : asmChan n = some ch) : n < 5 := by
  by_contra hn
  simp [asmChan_of_not_lt hn] at h

theorem lt_of_asmCurve {n : Nat} {cv : Curve} (h : asmCurve n = some cv) : n < 5 := by
  by_contra hn
  simp [asmCurve_of_not_lt hn] at h

theorem AsmLine.fits_of_toInstr {l : AsmLine} {i : Instr} (h : l.toInstr = some i) : l.Fits := by
  cases l <;> simp only [toInstr, Option.bind_eq_bind, Option.bind_eq_some_iff] at h
  case nop | rst => trivial
  case ldcol | ldbri =>
    obtain ⟨_, hs, _, hch, _, hcv, _, hval, _, hft, -⟩ := h
    exact ⟨lt_of_asmStrip hs, lt_of_asmChan hch, lt_of_asmCurve hcv, lt_of_asmField hval, lt_of_asmField hft⟩
  case fade | setc =>
    obtain ⟨_, hs, _, hnow, _, htick, -⟩ := h
    exact ⟨lt_of_asmStrip hs, lt_of_asmField hnow, lt_of_asmField htick⟩
  case upd =>
    obtain ⟨_, hs, -⟩ := h
    exact lt_of_asmStrip hs
  case eval =>
    obtain ⟨_, hcv, _, hstart, _, hstop, _, helapsed, _, hft, -⟩ := h
    exact ⟨lt_of_asmCurve hcv, lt_of_asmField hstart, lt_of_asmField hstop, lt_of_asmField helapsed,
      lt_of_asmField hft⟩
  case duty =>
    obtain ⟨_, hcolor, _, hbright, -⟩ := h
    exact ⟨lt_of_asmField hcolor, lt_of_asmField hbright⟩

/-- R83: a line with an operand that does not fit its field is refused. -/
theorem AsmLine.assemble_of_not_fits {l : AsmLine} (h : ¬ l.Fits) : l.assemble = none := by
  rw [assemble, Option.map_eq_none_iff, Option.eq_none_iff_forall_ne_some]
  exact fun _ hi => h (fits_of_toInstr hi)

theorem assemble_ldcol {s ch cv color ft : ℕ} (h : (AsmLine.ldcol s ch cv color ft).Fits) :
    (AsmLine.ldcol s ch cv color ft).assemble =
      some ⟨BitVec.ofNat 32 (0x10000000 + s * 2 ^ 23 + ch * 2 ^ 20 + cv * 2 ^ 16 + color),
        BitVec.ofNat 32 ft, 0, 0⟩ := by
  obtain ⟨hs, hch, hcv, hcolor, hft⟩ := h
  obtain ⟨s, hs, rfl⟩ := asmStrip_of_lt hs
  obtain ⟨ch, hch, rfl⟩ := asmChan_of_lt hch
  obtain ⟨cv, hcv, rfl⟩ := asmCurve_of_lt hcv
  obtain ⟨color, hcolor, rfl⟩ := exists_asmField (w := 8) hcolor
  obtain ⟨ft, hft, rfl⟩ := exists_asmField hft
  simp [AsmLine.assemble, AsmLine.toInstr, hs, hch, hcv, hcolor, hft, encode, packW0_eq_ofNat, Opcode.code,
    BitVec.toNat_setWidth_of_le, -BitVec.toNat_setWidth]

theorem assemble_ldbri {s ch cv bright ft : ℕ} (h : (AsmLine.ldbri s ch cv bright ft).Fits) :
    (AsmLine.ldbri s ch cv bright ft).assemble =
      some ⟨BitVec.ofNat 32 (0x20000000 + s * 2 ^ 23 + ch * 2 ^ 20 + cv * 2 ^ 16 + bright),
        BitVec.ofNat 32 ft, 0, 0⟩ := by
  obtain ⟨hs, hch, hcv, hbright, hft⟩ := h
  obtain ⟨s, hs, rfl⟩ := asmStrip_of_lt hs
  obtain ⟨ch, hch, rfl⟩ := asmChan_of_lt hch
  obtain ⟨cv, hcv, rfl⟩ := asmCurve_of_lt hcv
  obtain ⟨bright, hbright, rfl⟩ := exists_asmField (w := 12) hbright
  obtain ⟨ft, hft, rfl⟩ := exists_asmField hft
  simp [AsmLine.assemble, AsmLine.toInstr, hs, hch, hcv, hbright, hft, encode, packW0_eq_ofNat, Opcode.code]

/-- FADE and SETC take the same operands and differ in the opcode alone (R83). -/
theorem assemble_fade_setc {s now tick : ℕ} (h : (AsmLine.fade s now tick).Fits) :
    (AsmLine.fade s now tick).assemble =
      some ⟨BitVec.ofNat 32 (0x30000000 + s * 2 ^ 23), BitVec.ofNat 32 now, BitVec.ofNat 32 tick, 0⟩ ∧
    (AsmLine.setc s now tick).assemble =
      some ⟨BitVec.ofNat 32 (0x40000000 + s * 2 ^ 23), BitVec.ofNat 32 now, BitVec.ofNat 32 tick, 0⟩ := by
  obtain ⟨hs, hnow, htick⟩ := h
  obtain ⟨s, hs, rfl⟩ := asmStrip_of_lt hs
  obtain ⟨now, hnow, rfl⟩ := exists_asmField hnow
  obtain ⟨tick, htick, rfl⟩ := exists_asmField htick
  simp [AsmLine.assemble, AsmLine.toInstr, hs, hnow, htick, encode, packW0_eq_ofNat, Opcode.code]

theorem assemble_upd {s : ℕ} (h : (AsmLine.upd s).Fits) :
    (AsmLine.upd s).assemble = some ⟨BitVec.ofNat 32 (0x50000000 + s * 2 ^ 23), 0, 0, 0⟩ := by
  obtain ⟨s, hs, rfl⟩ := asmStrip_of_lt h
  simp [AsmLine.assemble, AsmLine.toInstr, hs, encode, packW0_eq_ofNat, Opcode.code]

theorem assemble_eval {cv start stop elapsed ft : ℕ} (h : (AsmLine.eval cv start stop elapsed ft).Fits) :
    (AsmLine.eval cv start stop elapsed ft).assemble =
      some ⟨BitVec.ofNat 32 (0x60000000 + cv * 2 ^ 16 + start), BitVec.ofNat 32 stop, BitVec.ofNat 32 elapsed,
        BitVec.ofNat 32 ft⟩ := by
  obtain ⟨hcv, hstart, hstop, helapsed, hft⟩ := h
  obtain ⟨cv, hcv, rfl⟩ := asmCurve_of_lt hcv
  obtain ⟨start, hstart, rfl⟩ := exists_asmField (w := 12) hstart
  obtain ⟨stop, hstop, rfl⟩ := exists_asmField (w := 12) hstop
  obtain ⟨elapsed, helapsed, rfl⟩ := exists_asmField helapsed
  obtain ⟨ft, hft, rfl⟩ := exists_asmField hft
  simp [AsmLine.assemble, AsmLine.toInstr, hcv, hstart, hstop, helapsed, hft, encode, packW0_eq_ofNat, Opcode.code]

theorem assemble_duty {color bright : ℕ} (h : (AsmLine.duty color bright).Fits) :
    (AsmLine.duty color bright).assemble =
      some ⟨BitVec.ofNat 32 (0x70000000 + bright), BitVec.ofNat 32 color, 0, 0⟩ := by
  obtain ⟨hcolor, hbright⟩ := h
  obtain ⟨color, hcolor, rfl⟩ := exists_asmField (w := 8) hcolor
  obtain ⟨bright, hbright, rfl⟩ := exists_asmField (w := 12) hbright
  simp [AsmLine.assemble, AsmLine.toInstr, hcolor, hbright, encode, packW0_eq_ofNat, Opcode.code]

/-! ### LDBLACK (R84) -/

/-- The two loads of one channel replace that channel alone. -/
theorem runInstrs_ldch_black_eq (s : StripId) (ch : Chan) (cv : Curve) (ft : Word) (st : State) :
    runInstrs (expandLdch s ch 0 cv ft 0 cv ft) st =
      some (st.setChannel s ch (loadedBlack cv ft (st.channel s ch))) := by
  cases s <;> cases ch <;> rfl

theorem runInstrs_flatMap_ldch_black (s : StripId) (cv : Curve) (ft : Word) (chs : List Chan) (st : State) :
    runInstrs (chs.flatMap fun ch => expandLdch s ch 0 cv ft 0 cv ft) st =
      some (chs.foldl (fun st ch => st.setChannel s ch (loadedBlack cv ft (st.channel s ch))) st) := by
  induction chs generalizing st with
  | nil => rfl
  | cons ch chs ih =>
    rw [List.flatMap_cons, runInstrs_append (runInstrs_ldch_black_eq s ch cv ft st), ih, List.foldl_cons]

/-- LDBLACK stages black on each channel of the strip, and that is all it does. -/
theorem runInstrs_ldblack (s : StripId) (cv : Curve) (ft : Word) (st : State) :
    runInstrs (Pseudo.expand (.ldblack s cv ft)) st =
      some (st.setStrip s { st.strip s with channels := (st.strip s).channels.map (loadedBlack cv ft) }) := by
  refine (runInstrs_flatMap_ldch_black s cv ft allChans st).trans ?_
  cases s <;> rfl

end Sys2Proof.Machine

namespace Sys2Proof.Proofs

open Sys2Proof.Machine Sys2Proof.Safety

/-- Settles O6: each line's words where its operands fit, and its refusal where they do not. -/
theorem assemblerPlacesOperands : Obligations.AssemblerPlacesOperands := by
  refine ⟨fun s ch cv color ft => ?_, fun s ch cv bright ft => ?_, fun s now tick => ?_, fun s => ?_,
    fun cv start stop elapsed ft => ?_, fun color bright => ?_, rfl, rfl⟩ <;> split_ifs with h
  · exact assemble_ldcol h
  · exact AsmLine.assemble_of_not_fits h
  · exact assemble_ldbri h
  · exact AsmLine.assemble_of_not_fits h
  · exact assemble_fade_setc h
  · exact ⟨AsmLine.assemble_of_not_fits h, AsmLine.assemble_of_not_fits h⟩
  · exact assemble_upd h
  · exact AsmLine.assemble_of_not_fits h
  · exact assemble_eval h
  · exact AsmLine.assemble_of_not_fits h
  · exact assemble_duty h
  · exact AsmLine.assemble_of_not_fits h

/-- Settles O7: the strip after LDBLACK is the old one with `loadedBlack` applied to every channel. -/
theorem ldblackStagesBlack : Obligations.LdblackStagesBlack := by
  intro s cv ft st
  refine ⟨rfl, _, runInstrs_ldblack s cv ft st, fun ch => ?_, ?_, fun s' hs => State.strip_setStrip_ne _ _ hs,
    rfl, rfl, rfl, rfl, rfl⟩
  · simp only [State.channel, State.strip_setStrip_self, Strip.channel, PerChan.get_map]
    exact ⟨⟨⟨rfl, rfl, rfl, rfl, rfl, rfl⟩, ⟨rfl, rfl, rfl, rfl, rfl, rfl⟩⟩, rfl, rfl, rfl, rfl⟩
  · rw [State.strip_setStrip_self]

end Sys2Proof.Proofs
end

section
/-! PROOFS. The curve unit in Q (spec/40_curve.md R101 to R113): the weights at and between the ends of the percent,
and what the floor of the rational formula makes of them. -/

namespace Sys2Proof.Machine

open Safety

/-! ### Weights -/

@[simp] theorem weightQ_one (cv : Curve) : weightQ cv 1 = 1 := by cases cv <;> norm_num [weightQ]

theorem weightQ_zero {cv : Curve} (h : cv ≠ .none) : weightQ cv 0 = 0 := by
  cases cv with
  | none => exact absurd rfl h
  | _ => norm_num [weightQ]

/-- Before p = 1 the weight of every curve but None is below 1. -/
theorem weightQ_lt_one {cv : Curve} (hcv : cv ≠ .none) {p : ℚ} (h0 : 0 ≤ p) (h1 : p < 1) : weightQ cv p < 1 := by
  cases cv with
  | none => exact absurd rfl hcv
  | linear => exact h1
  | easeIn => exact pow_lt_one₀ h0 h1 (by decide)
  | easeOut => exact sub_lt_self 1 (pow_pos (sub_pos.2 h1) 4)
  | easeInOut =>
    rw [weightQ]
    split
    · have : p ^ 4 ≤ (1 / 2) ^ 4 := by gcongr
      linarith
    · have : 0 < (2 - 2 * p) ^ 4 := pow_pos (by linarith) 4
      linarith

theorem weightQ_eq_one_iff {cv : Curve} (hcv : cv ≠ .none) {p : ℚ} (h0 : 0 ≤ p) (h1 : p ≤ 1) :
    weightQ cv p = 1 ↔ p = 1 := by
  refine ⟨fun hw => ?_, fun hp => hp ▸ weightQ_one cv⟩
  exact h1.eq_or_lt.resolve_right fun hlt => (weightQ_lt_one hcv h0 hlt).ne hw

/-! ### The floored value -/

/-- None too is the floor of the formula, since its weight is 1 (R106, R107). -/
theorem curveQ_eq_floor (cv : Curve) (p : ℚ) (a b : ℕ) :
    curveQ cv p a b = ⌊(a : ℚ) + ((b : ℚ) - a) * weightQ cv (min (max p 0) 1)⌋ := by
  cases cv with
  | none => simp [curveQ, weightQ]
  | _ => rfl

/-- The clamp of R101 keeps the order of two percents, so that their weights are in order at any percents. -/
theorem weightQ_clamp_mono (cv : Curve) {p q : ℚ} (h : p ≤ q) :
    weightQ cv (min (max p 0) 1) ≤ weightQ cv (min (max q 0) 1) :=
  weightQ_mono cv (le_min (le_max_right p 0) zero_le_one) (by gcongr) (min_le_right ..)

theorem curveQ_mono (cv : Curve) {p q : ℚ} (h : p ≤ q) {a b : ℕ} (hab : a ≤ b) :
    curveQ cv p a b ≤ curveQ cv q a b := by
  have hdiff : (0 : ℚ) ≤ b - a := sub_nonneg.2 (Nat.cast_le.2 hab)
  rw [curveQ_eq_floor, curveQ_eq_floor]
  exact Int.floor_mono (add_le_add_right (mul_le_mul_of_nonneg_left (weightQ_clamp_mono cv h) hdiff) _)

theorem curveQ_anti (cv : Curve) {p q : ℚ} (h : p ≤ q) {a b : ℕ} (hba : b ≤ a) :
    curveQ cv q a b ≤ curveQ cv p a b := by
  have hdiff : (b : ℚ) - a ≤ 0 := sub_nonpos.2 (Nat.cast_le.2 hba)
  rw [curveQ_eq_floor, curveQ_eq_floor]
  exact Int.floor_mono (add_le_add_right (mul_le_mul_of_nonpos_left (weightQ_clamp_mono cv h) hdiff) _)

/-- R109: a value on the way from `a` to `b` lies between them. -/
theorem add_sub_mul_mem_endpoints (a b : ℚ) {w : ℚ} (h0 : 0 ≤ w) (h1 : w ≤ 1) :
    min a b ≤ a + (b - a) * w ∧ a + (b - a) * w ≤ max a b := by
  have h := (convex_uIcc a b).lineMap_mem Set.left_mem_uIcc Set.right_mem_uIcc ⟨h0, h1⟩
  rwa [AffineMap.lineMap_apply_ring', add_comm, mul_comm] at h

theorem curveQ_one (cv : Curve) (a b : ℕ) : curveQ cv 1 a b = b := by simp [curveQ_eq_floor]

theorem curveQ_zero {cv : Curve} (h : cv ≠ .none) (a b : ℕ) : curveQ cv 0 a b = a := by
  simp [curveQ_eq_floor, weightQ_zero h]

theorem curveQ_self (cv : Curve) (p : ℚ) (a : ℕ) : curveQ cv p a a = a := by simp [curveQ_eq_floor]

/-- R108: at a percent in [0, 1] the curve gives b where the value lies in [b, b + 1). -/
theorem curveQ_eq_stop_iff (cv : Curve) {p : ℚ} (h0 : 0 ≤ p) (h1 : p ≤ 1) (a b : ℕ) :
    curveQ cv p a b = b ↔ (b : ℚ) ≤ a + (b - a) * weightQ cv p ∧ a + (b - a) * weightQ cv p < (b : ℚ) + 1 := by
  rw [curveQ_eq_floor, max_eq_left h0, min_eq_left h1, Int.floor_eq_iff, Int.cast_natCast]

/-- R113: a rising value is never above b, and it is b where the weight is 1. -/
theorem curveQ_eq_stop_iff_of_lt {cv : Curve} (hcv : cv ≠ .none) {p : ℚ} (h0 : 0 ≤ p) (h1 : p ≤ 1) {a b : ℕ}
    (hab : a < b) : curveQ cv p a b = b ↔ p = 1 := by
  have hdiff : (0 : ℚ) < b - a := sub_pos.2 (Nat.cast_lt.2 hab)
  rw [curveQ_eq_stop_iff cv h0 h1, ← weightQ_eq_one_iff hcv h0 h1]
  refine ⟨fun ⟨hle, _⟩ => le_antisymm (weightQ_mem_unit cv h0 h1).2 ?_, fun hw => by simp [hw]⟩
  exact le_of_mul_le_mul_left (by linarith) hdiff

/-- R113: a falling value is never below b, and the floor is b as soon as less than 1 is left. -/
theorem curveQ_eq_stop_iff_of_gt (cv : Curve) {p : ℚ} (h0 : 0 ≤ p) (h1 : p ≤ 1) {a b : ℕ} (hba : b < a) :
    curveQ cv p a b = b ↔ ((a : ℚ) - b) * (1 - weightQ cv p) < 1 := by
  have hleft : (0 : ℚ) ≤ (a - b) * (1 - weightQ cv p) :=
    mul_nonneg (sub_nonneg.2 (Nat.cast_le.2 hba.le)) (sub_nonneg.2 (weightQ_mem_unit cv h0 h1).2)
  rw [curveQ_eq_stop_iff cv h0 h1, and_iff_right (by linarith)]
  constructor <;> intro h <;> linarith

/-! ### The block's curve -/

/-- A value of the block's curve is known from the rational curve. -/
theorem curve_block_eq_iff (cv : Curve) (p : Frac) (a b n : ℕ) :
    curve Config.block cv p a b = n ↔ curveQ cv p.toRat a b = n := by
  rw [← curve_block_eq, Nat.cast_inj]

theorem curve_block_le_iff (cv : Curve) (p q : Frac) (a b : ℕ) :
    curve Config.block cv p a b ≤ curve Config.block cv q a b ↔ curveQ cv p.toRat a b ≤ curveQ cv q.toRat a b := by
  rw [← curve_block_eq, ← curve_block_eq, Nat.cast_le]

theorem curve_block_mem_endpoints (cv : Curve) (p : Frac) (a b : ℕ) :
    min a b ≤ curve Config.block cv p a b ∧ curve Config.block cv p a b ≤ max a b := by
  have h := curveQ_mem_endpoints cv p.toRat a b
  rwa [← curve_block_eq, Nat.cast_le, Nat.cast_le] at h

end Sys2Proof.Machine

namespace Sys2Proof.Proofs

open Sys2Proof.Machine Sys2Proof.Safety

/-- Settles O19: the block computes exactly and floors, and the floor is never negative (R109). -/
theorem curveEqualsRationalFormula : Obligations.CurveEqualsRationalFormula := curve_block_eq

/-- Settles O21: the value moves from one end point to the other by a weight in [0, 1]. -/
theorem curveStaysBetweenEndpoints : Obligations.CurveStaysBetweenEndpoints := by
  refine ⟨fun cv p h0 h1 => ?_, fun cv p a b => ?_⟩
  · obtain ⟨hw0, hw1⟩ := weightQ_mem_unit cv h0 h1
    exact ⟨hw0, hw1, fun a b => add_sub_mul_mem_endpoints a b hw0 hw1⟩
  · obtain ⟨hmin, hmax⟩ := curve_block_mem_endpoints cv p a b
    exact ⟨hmin, hmax, fun _ => curve_block_lt cv p⟩

/-- Settles O22: the weight is 1 at p = 1, and 0 at p = 0 but for None; between equal end points it does not count. -/
theorem curveEndpoints : Obligations.CurveEndpoints := by
  refine fun cv p a b => ⟨fun h1 => ?_, fun h0 => ?_, (curve_block_eq_iff ..).2 (curveQ_self ..)⟩
  · rw [curve_block_eq_iff, Frac.toRat, h1, curveQ_one]
  · split_ifs with hcv
    · rw [hcv, curve]
    · rw [curve_block_eq_iff, Frac.toRat, h0, curveQ_zero hcv]

/-- Settles O23: the weight rises with the percent, and the floor keeps the order. -/
theorem curveMonotone : Obligations.CurveMonotone := fun cv p q a b hpq =>
  ⟨fun hab => (curve_block_le_iff cv p q a b).2 (curveQ_mono cv hpq hab),
    fun hba => (curve_block_le_iff cv q p a b).2 (curveQ_anti cv hpq hba)⟩

/-- Settles O24: rising, the floor is b at weight 1 alone; falling, as soon as less than 1 is left. -/
theorem floorAsymmetry : Obligations.FloorAsymmetry :=
  ⟨fun _ _ _ _ hcv hab h0 h1 => (curve_block_eq_iff ..).trans (curveQ_eq_stop_iff_of_lt hcv h0 h1 hab),
    fun cv _ _ _ _ hba h0 h1 => (curve_block_eq_iff ..).trans (curveQ_eq_stop_iff_of_gt cv h0 h1 hba),
    by decide, by decide⟩

end Sys2Proof.Proofs
end

section
/-! PROOFS. The rule of one component of a fade pass (spec/41_fade.md R136 to R140) and what follows from it: when the
component reaches its target, where its anchor goes, and its value with and without a gap. -/

namespace Sys2Proof.Machine

open Safety

/-! ### The value of a moving component -/

/-- R140: a zero fade time is over at once. -/
theorem percentQ_zero (now ts : Word) : percentQ now ts 0 = 1 := percentQ_of_le_elapsed (Nat.zero_le _)

/-- `min(1, e / ft)` of R140, with its case for a zero fade time written out. -/
theorem percentQ_eq_ite (now ts ft : Word) :
    percentQ now ts ft = if ft = 0 then 1 else min 1 ((elapsedQ now ts : ℚ) / ft.toNat) := by
  split_ifs with hft
  · rw [hft, percentQ_zero]
  · have hne : ft.toNat ≠ 0 := fun h => hft (BitVec.eq_of_toNat_eq h)
    rw [percentQ, ratioQ, if_neg hne]

/-- At its timestamp a fade with a fade time stands at its start. -/
theorem percentQ_self {now ft : Word} (hft : ft ≠ 0) : percentQ now now ft = 0 := by
  rw [percentQ_eq_ite, if_neg hft, elapsedQ_self]
  simp

/-- R140: the value of a moving component is the rational curve's, also at a zero fade time, where p = 1 gives the
target; between two values of `w` bits it fits `w` bits (R109). -/
theorem toNat_fadeValue {w : ℕ} (now ft : Word) (cv : Curve) (x : Fader w) :
    ((fadeValue Config.block now ft cv x).toNat : ℤ) =
      curveQ cv (percentQ now x.ts ft) x.anc.toNat x.tgt.toNat := by
  unfold fadeValue
  split_ifs with hft
  · rw [hft, percentQ_zero, curveQ_one]
  · rw [toNat_ofNat_of_lt (curve_block_lt cv _ x.anc.isLt x.tgt.isLt), curve_block_eq]
    exact congrArg (curveQ cv · _ _) (toRat_fadePercent_exact ..)

end Sys2Proof.Machine

namespace Sys2Proof.Safety

open Sys2Proof.Machine

/-! ### The rule of one component -/

section
variable {w : ℕ} {gap : Prop} [Decidable gap] {now ft : Word} {cv : Curve} {x y : Fader w}

/-- The rule of a component at its target (R137). -/
theorem fadeRule_iff_of_atTarget (hx : x.cur = x.tgt) :
    FadeRule gap now ft cv x y ↔ SameStaging x y ∧ y.cur = x.cur ∧ y.anc = x.tgt ∧ y.ts = now := by
  simp only [FadeRule, SameStaging, if_pos hx, and_assoc]

/-- The rule of a moving component (R138 to R140); p = 1 makes a case for a zero fade time needless. -/
theorem fadeRule_iff_of_moving (hx : x.cur ≠ x.tgt) :
    FadeRule gap now ft cv x y ↔
      SameStaging x y ∧ y.ts = (if gap then now else x.ts) ∧
      (y.cur.toNat : ℤ) = curveQ cv (percentQ now (if gap then now else x.ts) ft) x.anc.toNat x.tgt.toNat ∧
      y.anc = if y.cur = x.tgt then x.tgt else x.anc := by
  have hzero : ft = 0 → (x.tgt.toNat : ℤ) =
      curveQ cv (percentQ now (if gap then now else x.ts) ft) x.anc.toNat x.tgt.toNat := fun hft => by
    rw [hft, percentQ_zero, curveQ_one]
  simp only [FadeRule, SameStaging, if_neg hx, ite_eq_right_iff.2 hzero, and_assoc]

theorem FadeRule.sameStaging (h : FadeRule gap now ft cv x y) : SameStaging x y := by
  obtain ⟨htgt, hft, hcv, -⟩ := h
  exact ⟨htgt, hft, hcv⟩

/-- A component at its target, or whose curve gives the target, is at its target after the pass, and its anchor with it
(R137, R139). -/
theorem FadeRule.reaches (h : FadeRule gap now ft cv x y)
    (hend : x.cur ≠ x.tgt →
      curveQ cv (percentQ now (if gap then now else x.ts) ft) x.anc.toNat x.tgt.toNat = x.tgt.toNat) :
    y.cur = x.tgt ∧ y.anc = x.tgt := by
  by_cases hx : x.cur = x.tgt
  · obtain ⟨-, hcur, hanc, -⟩ := (fadeRule_iff_of_atTarget hx).1 h
    exact ⟨hcur.trans hx, hanc⟩
  · obtain ⟨-, -, hcur, hanc⟩ := (fadeRule_iff_of_moving hx).1 h
    have hreach : y.cur = x.tgt := BitVec.eq_of_toNat_eq (Int.ofNat_inj.1 (hcur.trans (hend hx)))
    exact ⟨hreach, hanc.trans (if_pos hreach)⟩

/-- R149: a component at its target, or whose fade time is over, is at its target after the pass. -/
theorem FadeRule.completes (h : FadeRule gap now ft cv x y)
    (hover : x.cur = x.tgt ∨ ft.toNat ≤ elapsedQ now (if gap then now else x.ts)) :
    y.cur = x.tgt ∧ y.anc = x.tgt :=
  h.reaches fun hx => by rw [percentQ_of_le_elapsed (hover.resolve_left hx), curveQ_one]

/-- R139: the anchor stays, or becomes the value the component then holds. -/
theorem FadeRule.anc_eq_or_eq_cur (h : FadeRule gap now ft cv x y) : y.anc = x.anc ∨ y.anc = y.cur := by
  by_cases hx : x.cur = x.tgt
  · obtain ⟨-, hcur, hanc, -⟩ := (fadeRule_iff_of_atTarget hx).1 h
    exact .inr (hanc.trans (hcur.trans hx).symm)
  · obtain ⟨-, -, -, hanc⟩ := (fadeRule_iff_of_moving hx).1 h
    split_ifs at hanc with hreach
    · exact .inr (hanc.trans hreach.symm)
    · exact .inl hanc

/-- R150 a: a component at its target after the pass has its anchor there. -/
theorem FadeRule.anc_eq_tgt (h : FadeRule gap now ft cv x y) (hy : y.cur = y.tgt) : y.anc = y.tgt := by
  obtain ⟨htgt, -, -⟩ := h.sameStaging
  rw [htgt] at hy ⊢
  refine (h.reaches fun hx => ?_).2
  obtain ⟨-, -, hcur, -⟩ := (fadeRule_iff_of_moving hx).1 h
  rw [← hcur, hy]

/-- R148: on a gap a moving component returns to its anchor, or goes to its target for None or a zero fade time, and
its fade starts again from there. -/
theorem FadeRule.of_gap (h : FadeRule gap now ft cv x y) (hgap : gap) (hx : x.cur ≠ x.tgt) :
    y.ts = now ∧ y.cur = (if ft = 0 ∨ cv = .none then x.tgt else x.anc) ∧ y.anc = y.cur := by
  obtain ⟨-, hts, hcur, hanc⟩ := (fadeRule_iff_of_moving hx).1 h
  rw [if_pos hgap] at hts hcur
  split_ifs with hjump
  · obtain ⟨hreach, hreachAnc⟩ := h.reaches fun _ => by
      obtain rfl | rfl := hjump
      · rw [percentQ_zero, curveQ_one]
      · rfl
    exact ⟨hts, hreach, hreachAnc.trans hreach.symm⟩
  · obtain ⟨hft, hcv⟩ := not_or.1 hjump
    rw [percentQ_self hft, curveQ_zero hcv] at hcur
    have hback : y.cur = x.anc := BitVec.eq_of_toNat_eq (Int.ofNat_inj.1 hcur)
    refine ⟨hts, hback, hanc.trans ?_⟩
    split_ifs with hreach
    · exact hreach.symm
    · exact hback.symm

/-- R138, R140: without a gap a moving component keeps its timestamp and takes the curve's value at the percent of its
elapsed time. -/
theorem FadeRule.of_not_gap (h : FadeRule gap now ft cv x y) (hgap : ¬ gap) (hx : x.cur ≠ x.tgt) :
    y.ts = x.ts ∧ (y.cur.toNat : ℤ) = curveQ cv (percentQ now x.ts ft) x.anc.toNat x.tgt.toNat := by
  obtain ⟨-, hts, hcur, -⟩ := (fadeRule_iff_of_moving hx).1 h
  rw [if_neg hgap] at hts hcur
  exact ⟨hts, hcur⟩

end

/-! ### Both components of a channel -/

theorem ForBoth.imp {R S : (w : ℕ) → Fader w → Fader w → Prop} {a b : Channel} (h : ForBoth R a b)
    (hRS : ∀ {w} {x y : Fader w}, R w x y → S w x y) : ForBoth S a b := ⟨hRS h.1, hRS h.2⟩

theorem ForBoth.imp₂ {Q R S : (w : ℕ) → Fader w → Fader w → Prop} {a b : Channel} (hQ : ForBoth Q a b)
    (hR : ForBoth R a b) (hS : ∀ {w} {x y : Fader w}, Q w x y → R w x y → S w x y) : ForBoth S a b :=
  ⟨hS hQ.1 hR.1, hS hQ.2 hR.2⟩

end Sys2Proof.Safety
end

section
/-! PROOFS. The fade engine (spec/41_fade.md R131 to R150): the machine's pass is the rule on every component of the
strip, whichever of FADE and SETC runs it; what the other commands do to an anchor, and that UPD reads no staging
register; and the statements about them. -/

namespace Sys2Proof.Machine

open Safety

/-! ### The pass over a strip -/

/-- The fade time and the curve of a component's step (R135, R146). -/
def FadeTiming.timing {w : ℕ} (tm : FadeTiming) (x : Fader w) : Word × Curve :=
  match tm with
  | .staged => (x.ft, x.cv)
  | .instant => (0, .none)

theorem Fader.stepTimed_eq_step {w : ℕ} (P : Params) (tm : FadeTiming) (now : Word) (x : Fader w) :
    x.stepTimed P tm now = x.step P now (tm.timing x).1 (tm.timing x).2 := by cases tm <;> rfl

@[simp] theorem FadeTiming.timing_restart {w : ℕ} (tm : FadeTiming) (t : Word) (x : Fader w) :
    tm.timing (x.restart t) = tm.timing x := by cases tm <;> rfl

/-- The machine's step, from the timestamp the gap rule leaves, follows the rule (R136 to R140). -/
theorem fadeRule_stepTimed {w : ℕ} (gap : Prop) [Decidable gap] (tm : FadeTiming) (now : Word) (x : Fader w) :
    FadeRule gap now (tm.timing x).1 (tm.timing x).2 x
      ((x.restart (if gap then now else x.ts)).stepTimed Config.block tm now) := by
  rw [Fader.stepTimed_eq_step, FadeTiming.timing_restart]
  by_cases hx : x.cur = x.tgt
  · rw [fadeRule_iff_of_atTarget hx, Fader.step_atTarget (x := x.restart (if gap then now else x.ts)) _ _ _ _ hx]
    exact ⟨⟨rfl, rfl, rfl⟩, rfl, rfl, rfl⟩
  · rw [fadeRule_iff_of_moving hx, Fader.step_moving (x := x.restart (if gap then now else x.ts)) _ _ _ _ hx]
    exact ⟨⟨rfl, rfl, rfl⟩, rfl, toNat_fadeValue .., rfl⟩

/-- R136: the gap rule writes the timestamps alone. -/
theorem Strip.channel_gapRule_eq (now tick : Word) (x : Strip) (ch : Chan) :
    (x.gapRule now tick).channel ch =
      { x.channel ch with
        color := (x.channel ch).color.restart
          (if tick.toNat ≠ (x.lastTick.toNat + 1) % 2 ^ 32 then now else (x.channel ch).color.ts)
        bright := (x.channel ch).bright.restart
          (if tick.toNat ≠ (x.lastTick.toNat + 1) % 2 ^ 32 then now else (x.channel ch).bright.ts) } := by
  simp only [Strip.channel_gapRule, isGap_iff_toNat]
  split_ifs <;> rfl

/-- R135: a pass makes of every component of the strip what the rule says. -/
theorem forBoth_fadeRule_fadePass (tm : FadeTiming) (now tick : Word) (x : Strip) (ch : Chan) :
    ForBoth (fun _ y z => FadeRule (tick.toNat ≠ (x.lastTick.toNat + 1) % 2 ^ 32) now (tm.timing y).1
      (tm.timing y).2 y z) (x.channel ch) ((x.fadePass Config.block tm now tick).channel ch) := by
  simp only [Strip.fadePass, Strip.channel_markSettled, Strip.channel_steps_passOrder, Strip.channel_gapRule_eq,
    Channel.stepBoth]
  exact ⟨fadeRule_stepTimed .., fadeRule_stepTimed ..⟩

/-- R142: a strip's steps do not depend on their order, since any two of them commute. -/
theorem Strip.steps_perm (P : Params) (tm : FadeTiming) (now : Word) {l l' : List (Chan × Comp)} (h : l.Perm l')
    (x : Strip) : Strip.steps P tm now l x = Strip.steps P tm now l' x :=
  h.foldl_eq' (fun _ _ _ _ _ => Strip.stepComp_comm ..) x

/-! ### The pass on the state -/

section
variable (tm : FadeTiming) (s : StripId) (now tick : Word) (st : State)

theorem channel_fadeStrip_self (P : Params) (ch : Chan) :
    (fadeStrip P tm s now tick st).channel s ch = ((st.strip s).fadePass P tm now tick).channel ch :=
  (channel_fadeStrip ..).trans (if_pos rfl)

/-- R135: FADE and SETC make of every component of the strip what the rule says. -/
theorem forBoth_fadeRule_fadeStrip (ch : Chan) :
    ForBoth (fun _ x y => FadeRule (tick.toNat ≠ ((st.strip s).lastTick.toNat + 1) % 2 ^ 32) now (tm.timing x).1
      (tm.timing x).2 x y) (st.channel s ch) ((fadeStrip Config.block tm s now tick st).channel s ch) := by
  rw [channel_fadeStrip_self]
  exact forBoth_fadeRule_fadePass ..

/-- R141: the SET flag a pass leaves. -/
theorem settled_channel_fadeStrip_iff (P : Params) (ch : Chan) :
    ((fadeStrip P tm s now tick st).channel s ch).settled = true ↔
      ForBoth (fun _ _ y => y.cur = y.tgt) (st.channel s ch) ((fadeStrip P tm s now tick st).channel s ch) := by
  rw [channel_fadeStrip_self, Strip.fadePass, Strip.channel_markSettled]
  exact Channel.atTarget_iff _

/-- R141: the SETTLED a pass leaves. -/
theorem settled_fadeStrip_iff_atTarget (P : Params) :
    (fadeStrip P tm s now tick st).status.settled s = true ↔
      ∀ ch, ForBoth (fun _ _ y => y.cur = y.tgt) (st.channel s ch)
        ((fadeStrip P tm s now tick st).channel s ch) :=
  (settled_iff_fadeStrip ..).trans (forall_congr' (settled_channel_fadeStrip_iff tm s now tick st P))

/-- A pass that leaves every component at the target it had before settles the strip. -/
theorem settled_fadeStrip_of_reaches {R : (w : ℕ) → Fader w → Fader w → Prop}
    (hR : ∀ {w} {x y : Fader w}, R w x y → y.cur = x.tgt)
    (h : ∀ ch, ForBoth R (st.channel s ch) ((fadeStrip Config.block tm s now tick st).channel s ch)) :
    (fadeStrip Config.block tm s now tick st).status.settled s = true :=
  (settled_fadeStrip_iff_atTarget ..).2 fun ch =>
    (forBoth_fadeRule_fadeStrip tm s now tick st ch).imp₂ (h ch) fun hrule hreach =>
      (hR hreach).trans hrule.sameStaging.1.symm

/-- R135 to R141: the whole pass. -/
theorem passRule_fadeStrip :
    PassRule s now tick (fun x => tm.timing x.color) (fun x => tm.timing x.bright) st
      (fadeStrip Config.block tm s now tick st) := by
  refine ⟨?_, fun ch => ?_, settled_iff_fadeStrip .., fun s' hs => ?_, keepsErrors_fadeStrip ..,
    result_fadeStrip .., writes_fadeStrip .., port_fadeStrip ..⟩
  · rw [strip_fadeStrip_self, Strip.lastTick_fadePass]
  · obtain ⟨hcolor, hbright⟩ := forBoth_fadeRule_fadeStrip tm s now tick st ch
    refine ⟨hcolor, hbright, settled_channel_fadeStrip_iff .., ?_⟩
    rw [channel_fadeStrip_self]
    exact Strip.keepsShadow_fadePass ..
  · exact ⟨strip_fadeStrip_ne _ _ _ _ _ hs, settled_fadeStrip_ne _ _ _ _ _ hs⟩

/-- FADE and SETC differ in their timing alone (R146). -/
theorem exists_exec_eq_fadeStrip {i : Instr} (h : i ∈ [Instr.fade s now tick, Instr.setc s now tick]) :
    ∃ tm, exec i st = .next (fadeStrip Config.block tm s now tick st) := by
  obtain rfl | rfl := List.mem_pair.1 h
  · exact ⟨.staged, rfl⟩
  · exact ⟨.instant, rfl⟩

end

/-! ### Anchors under every command -/

/-- A command leaves an anchor or moves it to the value its component then holds (R139, R150). -/
theorem anc_effect (i : Instr) (st : State) (s : StripId) (ch : Chan) :
    ForBoth (fun _ x y => y.anc = x.anc ∨ y.anc = y.cur) (st.channel s ch) ((effect i st).channel s ch) := by
  by_cases hr : i = .rst
  · rw [hr, effect, channel_resetState]
    exact ⟨.inr rfl, .inr rfl⟩
  obtain h | ⟨_, _, _, -, h⟩ | ⟨_, _, _, -, h⟩ | ⟨tm, now, tick, -, h⟩ | ⟨-, h⟩ := channel_effect_cases st s ch hr
  case inr.inr.inr.inl =>
    rw [h]
    exact (forBoth_fadeRule_fadePass tm now tick _ ch).imp FadeRule.anc_eq_or_eq_cur
  all_goals
    rw [h]
    exact ⟨.inl rfl, .inl rfl⟩

/-! ### Loads and UPD -/

/-- Everything that replacing one channel leaves alone (R132). -/
theorem State.setChannel_frame (st : State) (s : StripId) (ch : Chan) (x : Channel) :
    (∀ s' ch', ¬ (s' = s ∧ ch' = ch) → (st.setChannel s ch x).channel s' ch' = st.channel s' ch') ∧
      (∀ s', ((st.setChannel s ch x).strip s').lastTick = (st.strip s').lastTick) ∧
      (st.setChannel s ch x).status = st.status ∧ (st.setChannel s ch x).result = st.result ∧
      (st.setChannel s ch x).faultW0 = st.faultW0 ∧ KeepsPorts st (st.setChannel s ch x) :=
  ⟨fun _ _ h => (State.channel_setChannel ..).trans (if_neg h), fun _ => State.lastTick_setChannel ..,
    rfl, rfl, rfl, rfl, rfl⟩

/-- R183: what UPD writes of a channel depends on its current pair and its shadow only. -/
theorem updEvents_congr (P : Params) (s : StripId) (ch : Chan) {x y : Channel} (hsh : KeepsShadow x y)
    (hcur : ForBoth (fun _ x y => y.cur = x.cur) x y) : updEvents P s ch y = updEvents P s ch x := by
  obtain ⟨hshv, hshC, hshB⟩ := hsh
  obtain ⟨hc, hb⟩ := hcur
  have hchanged : y.changed = x.changed := by simp only [Channel.changed, hshv, hshC, hshB, hc, hb]
  rw [updEvents, updEvents, hchanged, hc, hb]

/-- UPD does the same from two states with the same histories, current pairs and shadows. -/
theorem updStrip_congr (P : Params) (s : StripId) {st u : State} (hw : u.writes = st.writes)
    (hsh : ∀ s ch, KeepsShadow (st.channel s ch) (u.channel s ch))
    (hcur : ∀ s ch, ForBoth (fun _ x y => y.cur = x.cur) (st.channel s ch) (u.channel s ch)) :
    (updStrip P s u).writes = (updStrip P s st).writes ∧
      ∀ s' ch, KeepsShadow ((updStrip P s st).channel s' ch) ((updStrip P s u).channel s' ch) := by
  refine ⟨?_, fun s' ch => ?_⟩
  · simp only [writes_updStrip, hw, updEvents_congr P s _ (hsh s _) (hcur s _)]
  · rw [channel_updStrip, channel_updStrip]
    split_ifs with hs
    · exact ⟨rfl, (hcur s ch).1, (hcur s ch).2⟩
    · exact hsh s' ch

/-- R185: after a command that is no pass, UPD or RST, UPD does what it would have done without it. -/
theorem updStrip_effect (P : Params) (s : StripId) {i : Instr} (st : State)
    (hf : ∀ s now tick, i ≠ .fade s now tick) (hs : ∀ s now tick, i ≠ .setc s now tick)
    (hu : ∀ s, i ≠ .upd s) (hr : i ≠ .rst) :
    (updStrip P s (effect i st)).writes = (updStrip P s st).writes ∧
      ∀ s' ch, KeepsShadow ((updStrip P s st).channel s' ch) ((updStrip P s (effect i st)).channel s' ch) := by
  refine updStrip_congr P s (writes_effect st hu) (fun s ch => keepsShadow_effect st s ch (hu s) hr) fun s ch => ?_
  obtain ⟨-, hkeep⟩ := sameFadeState_effect st s (hf s) (hs s) hr
  obtain ⟨⟨hcolor, -, -⟩, ⟨hbright, -, -⟩, -⟩ := hkeep ch
  exact ⟨hcolor, hbright⟩

end Sys2Proof.Machine

namespace Sys2Proof.Proofs

open Sys2Proof.Machine Sys2Proof.Safety

/-- Settles O27: the pass with the staged timing. -/
theorem fadeRunsOnePass : Obligations.FadeRunsOnePass :=
  fun s now tick st => ⟨_, rfl, passRule_fadeStrip .staged s now tick st⟩

/-- Settles O28: the pass with the instant timing; a fade time of 0 is over at any time. -/
theorem setcSetsTheStripAtOnce : Obligations.SetcSetsTheStripAtOnce := by
  intro s now tick st
  have hreach : ∀ ch, ForBoth (fun _ x y => y.cur = x.tgt) (st.channel s ch)
      ((fadeStrip Config.block .instant s now tick st).channel s ch) := fun ch =>
    (forBoth_fadeRule_fadeStrip .instant s now tick st ch).imp fun h => (h.completes (.inr (Nat.zero_le _))).1
  exact ⟨_, rfl, passRule_fadeStrip .instant s now tick st, hreach,
    settled_fadeStrip_of_reaches _ _ _ _ _ id hreach⟩

/-- Settles O30: the flags a pass leaves, under either timing. -/
theorem settledIffAllAtTarget : Obligations.SettledIffAllAtTarget := by
  intro s now tick st i hi
  obtain ⟨tm, hexec⟩ := exists_exec_eq_fadeStrip s now tick st hi
  exact ⟨_, hexec, settled_channel_fadeStrip_iff tm s now tick st _, settled_fadeStrip_iff_atTarget tm s now tick st _⟩

/-- Settles O31: any two component steps commute. -/
theorem stepOrderIrrelevant : Obligations.StepOrderIrrelevant :=
  fun P tm now _ x h => Strip.steps_perm P tm now h x

/-- Settles O32: after the gap the elapsed time is 0, so p = 0. -/
theorem gapReturnsToAnchor : Obligations.GapReturnsToAnchor := by
  refine fun s now tick st hgap => ⟨_, rfl, fun ch =>
    (forBoth_fadeRule_fadeStrip .staged s now tick st ch).imp fun h hx => ?_⟩
  obtain ⟨htgt, hft, -⟩ := h.sameStaging
  obtain ⟨hts, hcur, hanc⟩ := h.of_gap hgap hx
  exact ⟨hts, hcur, hanc, htgt, hft⟩

/-- Settles O33: between equal end points the curve is constant. -/
theorem retargetToAnchorSettles : Obligations.RetargetToAnchorSettles := by
  refine fun s now tick st => ⟨_, rfl, fun ch =>
    (forBoth_fadeRule_fadeStrip .staged s now tick st ch).imp fun h hanchor => ?_⟩
  obtain ⟨hcur, hanc⟩ := h.reaches fun _ => by rw [hanchor, curveQ_self]
  exact ⟨hcur, hanc, h.sameStaging.1⟩

/-- Settles O34: at p = 1 the curve gives the target. -/
theorem fadeCompletesWhenTimeIsUp : Obligations.FadeCompletesWhenTimeIsUp := by
  intro s now tick st htick
  have hreach : ∀ ch, ForBoth (fun _ x y => x.cur = x.tgt ∨ x.ft.toNat ≤ elapsedQ now x.ts →
      y.cur = x.tgt ∧ y.anc = x.tgt) (st.channel s ch)
      ((fadeStrip Config.block .staged s now tick st).channel s ch) := fun ch =>
    (forBoth_fadeRule_fadeStrip .staged s now tick st ch).imp fun h hover =>
      h.completes (by rwa [if_neg (not_not.2 htick)])
  exact ⟨_, rfl, hreach, fun hover => settled_fadeStrip_of_reaches _ _ _ _ _ And.left fun ch =>
    (hreach ch).imp₂ (hover ch) fun h => h⟩

/-- Settles O35: a component at its target stays there. -/
theorem settledStripStaysSettled : Obligations.SettledStripStaysSettled := by
  intro s now tick st hall
  have hkeep : ∀ ch, ForBoth (fun _ x y => y.cur = x.tgt ∧ y.cur = x.cur ∧ y.tgt = x.tgt) (st.channel s ch)
      ((fadeStrip Config.block .staged s now tick st).channel s ch) := fun ch =>
    (forBoth_fadeRule_fadeStrip .staged s now tick st ch).imp₂ (hall ch) fun h hx => by
      obtain ⟨⟨htgt, -, -⟩, hcur, -, -⟩ := (fadeRule_iff_of_atTarget hx).1 h
      exact ⟨hcur.trans hx, hcur, htgt⟩
  exact ⟨_, rfl, settled_fadeStrip_of_reaches _ _ _ _ _ And.left hkeep, fun ch => (hkeep ch).imp And.right⟩

/-- Settles O36: a component reaches its target only together with its anchor. -/
theorem settledComponentsAreAnchored : Obligations.SettledComponentsAreAnchored := by
  intro s now tick st i hi
  obtain ⟨tm, hexec⟩ := exists_exec_eq_fadeStrip s now tick st hi
  exact ⟨_, hexec, fun ch => (forBoth_fadeRule_fadeStrip tm s now tick st ch).imp FadeRule.anc_eq_tgt⟩

/-- Settles O37: being idle and recording an illegal command move no anchor, and a command's effect only to the value
its component then holds. -/
theorem anchorMovesOnlyToReachedValue : Obligations.AnchorMovesOnlyToReachedValue := by
  intro st t hstep s ch
  obtain ⟨-, rfl⟩ | ⟨c, rest, i, -, -, hexec⟩ | ⟨c, rest, k, -, -, rfl⟩ := step_cases hstep
  · exact ⟨.inl rfl, .inl rfl⟩
  · obtain rfl := eq_effect_of_exec hexec
    exact anc_effect i { st with port := rest } s ch
  · rw [State.channel_congr (strips_raiseIllegal ..)]
    exact ⟨.inl rfl, .inl rfl⟩

/-- Settles O57: the elapsed time is 2^32 - d. -/
theorem backwardTimeCompletes : Obligations.BackwardTimeCompletes := by
  refine fun s now tick st htick => ⟨_, rfl, fun ch =>
    (forBoth_fadeRule_fadeStrip .staged s now tick st ch).imp fun {w x y} h d hd1 hd2 hnow hx => ?_⟩
  have helapsed : elapsedQ now x.ts = 2 ^ 32 - d := hnow ▸ elapsedQ_sub x.ts hd1 hd2
  obtain ⟨hts, hcur⟩ := h.of_not_gap (not_not.2 htick) hx
  refine ⟨hts, ?_⟩
  rw [← helapsed]
  split_ifs with hover
  · exact h.completes (.inr (by rwa [if_neg (not_not.2 htick)]))
  · rw [hcur, ← percentQ_of_elapsed_lt (not_le.1 hover)]
    rfl

/-- Settles O58: the elapsed time is e. -/
theorem fadeIsTimedAcrossTheWrap : Obligations.FadeIsTimedAcrossTheWrap := by
  refine fun s now tick st htick => ⟨_, rfl, fun ch =>
    (forBoth_fadeRule_fadeStrip .staged s now tick st ch).imp fun {w x y} h e he hnow hx => ?_⟩
  have helapsed : elapsedQ now x.ts = e := hnow ▸ elapsedQ_add x.ts he
  obtain ⟨hts, hcur⟩ := h.of_not_gap (not_not.2 htick) hx
  refine ⟨hts, hcur.trans ?_⟩
  rw [← helapsed, ← percentQ_eq_ite]
  rfl

/-- Settles O38: each pass reads its own strip only, and the two strips are equal. -/
theorem equalStripsFadeAlike : Obligations.EqualStripsFadeAlike := by
  refine fun now tick st heq => ⟨_, _, rfl, rfl, ?_, ?_⟩
  · rw [strip_fadeStrip_ne _ _ _ _ _ (by decide), strip_fadeStrip_self, strip_fadeStrip_self,
      strip_fadeStrip_ne _ _ _ _ _ (by decide), heq]
  · rw [settled_fadeStrip_ne _ _ _ _ _ (by decide), settled_fadeStrip_self, settled_fadeStrip_self,
      strip_fadeStrip_ne _ _ _ _ _ (by decide), heq]

/-- Settles O47: a load leaves the current values, the shadow and the history, which are all that UPD reads. -/
theorem updIgnoresStaging : Obligations.UpdIgnoresStaging := by
  intro s s' ch cv color bright ft st i hi
  refine ⟨_, _, _, exec_eq_effect (.upd s) st, exec_eq_effect i st, exec_eq_effect (.upd s) _, ?_⟩
  obtain rfl | rfl := List.mem_pair.1 hi
  · exact updStrip_effect Config.block s st nofun nofun nofun nofun
  · exact updStrip_effect Config.block s st nofun nofun nofun nofun

/-- Settles O17: LDCOL replaces one channel by itself with its color loaded. -/
theorem ldcolLoadsColorTarget : Obligations.LdcolLoadsColorTarget := by
  refine fun s ch cv color ft st => ⟨_, exec_eq_effect .., ?_⟩
  rw [effect, State.channel_setChannel_self]
  exact ⟨rfl, rfl, rfl, ⟨rfl, rfl, rfl⟩, rfl, rfl, ⟨rfl, rfl, rfl⟩, State.setChannel_frame ..⟩

/-- Settles O18: LDBRI replaces one channel by itself with its brightness loaded. -/
theorem ldbriLoadsBrightnessTarget : Obligations.LdbriLoadsBrightnessTarget := by
  refine fun s ch cv bright ft st => ⟨_, exec_eq_effect .., ?_⟩
  rw [effect, State.channel_setChannel_self]
  exact ⟨rfl, rfl, rfl, ⟨rfl, rfl, rfl⟩, rfl, rfl, ⟨rfl, rfl, rfl⟩, State.setChannel_frame ..⟩

/-- Settles O29, by the equation of a step at the target. -/
theorem atTargetSlidesTimestamp : Obligations.AtTargetSlidesTimestamp :=
  fun _ P now ft cv _ hx => Fader.step_atTarget P now ft cv hx

end Sys2Proof.Proofs
end

section
/-! PROOFS. The duty (spec/42_pwm.md R170 to R174): the number N of R170, its quotient by 4095 rounded in integers, and
the duty as that quotient saturated. -/

namespace Sys2Proof.Machine

/-! ### N and its rounded quotient -/

/-- `N = (c + 1) * 16 * b` (R170). -/
def dutyN (c : Color) (b : Bright) : ℕ := (c.toNat + 1) * 16 * b.toNat

/-- R170's integer division, before saturation. -/
def roundedDuty (c : Color) (b : Bright) : ℕ := (2 * dutyN c b + 4095) / 8190

theorem dutyN_le {c : Color} {b : Bright} {m n : ℕ} (hc : c.toNat ≤ m) (hb : b.toNat ≤ n) :
    dutyN c b ≤ (m + 1) * 16 * n := by
  unfold dutyN
  gcongr

/-- At full brightness N is a multiple of 4095. -/
theorem roundedDuty_full (c : Color) : roundedDuty c 4095 = (c.toNat + 1) * 16 := by
  have hN : dutyN c 4095 = (c.toNat + 1) * 16 * 4095 := rfl
  unfold roundedDuty
  omega

/-- The only integer within one half of N / 4095 (R172): a second one would need a tie, and `2 * N` is even. -/
theorem eq_roundedDuty_of_abs_sub_le {c : Color} {b : Bright} {r : ℤ}
    (h : |(r : ℚ) - (dutyN c b : ℚ) / 4095| ≤ 1 / 2) : r = roundedDuty c b := by
  obtain ⟨hlow, hhigh⟩ := abs_le.1 h
  have hlow' : 2 * (dutyN c b : ℤ) ≤ 8190 * r + 4095 := by
    have : 2 * (dutyN c b : ℚ) ≤ 8190 * r + 4095 := by linarith
    exact_mod_cast this
  have hhigh' : 8190 * r ≤ 2 * (dutyN c b : ℤ) + 4095 := by
    have : 8190 * (r : ℚ) ≤ 2 * dutyN c b + 4095 := by linarith
    exact_mod_cast this
  unfold roundedDuty
  omega

/-- R170: the integer division rounds N / 4095 to the nearest integer. -/
theorem roundedDuty_eq_round (c : Color) (b : Bright) : (roundedDuty c b : ℤ) = round ((dutyN c b : ℚ) / 4095) :=
  (eq_roundedDuty_of_abs_sub_le (by rw [abs_sub_comm]; exact abs_sub_round _)).symm

/-- R174: below one half the rounded quotient is 0. -/
theorem roundedDuty_eq_zero_of_lt_half {c : Color} {b : Bright} (h : (dutyN c b : ℚ) / 4095 < 1 / 2) :
    roundedDuty c b = 0 := by
  have hN : 2 * dutyN c b < 4095 := by
    have : 2 * (dutyN c b : ℚ) < 4095 := by linarith
    exact_mod_cast this
  unfold roundedDuty
  omega

/-- R173: below the full color the rounded quotient is at most 255 * 16. -/
theorem roundedDuty_le_of_color_le {c : Color} {b : Bright} (hc : c.toNat ≤ 254) : roundedDuty c b ≤ 4080 := by
  have hN := dutyN_le hc (Nat.le_of_lt_succ b.isLt)
  unfold roundedDuty
  omega

/-- R173: below full brightness the rounded quotient is at most 4095, since `4096 * 4094 < 4095 * 4095`. -/
theorem roundedDuty_le_of_bright_le {c : Color} {b : Bright} (hb : b.toNat ≤ 4094) : roundedDuty c b ≤ 4095 := by
  have hN := dutyN_le (Nat.le_of_lt_succ c.isLt) hb
  unfold roundedDuty
  omega

/-- R173: the rounded quotient exceeds 4095 at the full pair only. -/
theorem lt_roundedDuty_iff (c : Color) (b : Bright) : 4095 < roundedDuty c b ↔ c.toNat = 255 ∧ b.toNat = 4095 := by
  constructor
  · intro h
    have hc : ¬ c.toNat ≤ 254 := fun hc => by
      have := roundedDuty_le_of_color_le (b := b) hc
      omega
    have hb : ¬ b.toNat ≤ 4094 := fun hb => (roundedDuty_le_of_bright_le hb).not_gt h
    omega
  · rintro ⟨hc, hb⟩
    simp [roundedDuty, dutyN, hc, hb]

/-! ### The duty -/

/-- R171. -/
theorem duty_of_eq_zero {c : Color} {b : Bright} (h : c = 0 ∨ b = 0) : duty c b = 0 := if_pos h

/-- R170: a non-zero pair's duty is the rounded quotient saturated. -/
theorem duty_eq_min_roundedDuty {c : Color} {b : Bright} (hc : c ≠ 0) (hb : b ≠ 0) :
    duty c b = min 4095 (roundedDuty c b) :=
  duty_of_ne_zero hc hb

/-- No duty exceeds the rounded quotient, zero operands included. -/
theorem duty_le_roundedDuty (c : Color) (b : Bright) : duty c b ≤ roundedDuty c b := by
  by_cases h : c = 0 ∨ b = 0
  · exact (duty_of_eq_zero h).trans_le (Nat.zero_le _)
  · obtain ⟨hc, hb⟩ := not_or.1 h
    exact (duty_eq_min_roundedDuty hc hb).trans_le (Nat.min_le_right _ _)

/-- R174: a non-zero color at full brightness has duty `(c + 1) * 16`, saturated. -/
theorem duty_full {c : Color} (hc : c ≠ 0) : duty c 4095 = min 4095 ((c.toNat + 1) * 16) := by
  rw [duty_eq_min_roundedDuty hc (by decide), roundedDuty_full]

end Sys2Proof.Machine

namespace Sys2Proof.Proofs

open Sys2Proof.Machine

/-- Settles O39: `dutyN` is at most 256 * 16 * 4095, and the nearest integer is unique. -/
theorem dutyIsRoundedProduct : Obligations.DutyIsRoundedProduct := by
  refine fun c b => ⟨dutyN_le (Nat.le_of_lt_succ c.isLt) (Nat.le_of_lt_succ b.isLt), roundedDuty_eq_round c b, ?_⟩
  split_ifs with h
  · exact duty_of_eq_zero h
  · obtain ⟨hc, hb⟩ := not_or.1 h
    refine ⟨?_, duty_eq_min_roundedDuty hc hb⟩
    rw [duty_eq_min_roundedDuty hc hb, Nat.cast_min, roundedDuty_eq_round]
    rfl

/-- Settles O40: `2 * N` and 8190 are even, and 4095 is odd. -/
theorem dutyHasNoTies : Obligations.DutyHasNoTies := by
  refine fun c b => ⟨by omega, fun r hr => ?_⟩
  have hround : r = roundedDuty c b := eq_roundedDuty_of_abs_sub_le hr
  refine ⟨hround, fun hc hb => ?_⟩
  rw [duty_eq_min_roundedDuty hc hb, hround, Nat.cast_min]
  rfl

/-- Settles O41, by the bounds of the rounded quotient below the full color and below full brightness. -/
theorem dutySaturatesOnlyAtFull : Obligations.DutySaturatesOnlyAtFull := by
  refine fun c b => ⟨lt_roundedDuty_iff c b, fun hc hb => ?_, Nat.le_of_lt_succ (duty_lt c b), fun hc => ?_,
    fun hc hb => ?_⟩
  · obtain rfl : c = 255 := BitVec.eq_of_toNat_eq hc
    obtain rfl : b = 4095 := BitVec.eq_of_toNat_eq hb
    decide
  · exact ⟨roundedDuty_le_of_color_le hc, (duty_le_roundedDuty c b).trans (roundedDuty_le_of_color_le hc)⟩
  · obtain rfl : c = 255 := BitVec.eq_of_toNat_eq hc
    obtain rfl : b = 4094 := BitVec.eq_of_toNat_eq hb
    decide

/-- Settles O42, by the zero case of R170. -/
theorem dutyZero : Obligations.DutyZero := ⟨fun _ => duty_of_eq_zero (.inl rfl), fun _ => duty_of_eq_zero (.inr rfl)⟩

/-- Settles O43: at full brightness the smallest non-zero color already gives 2 * 16. -/
theorem smallDuties : Obligations.SmallDuties := by
  refine ⟨fun c b h => ?_, by decide, by decide, fun c => ?_⟩
  · exact Nat.le_zero.1 (roundedDuty_eq_zero_of_lt_half h ▸ duty_le_roundedDuty c b)
  · by_cases hc : c = 0
    · exact .inl (duty_of_eq_zero (.inl hc))
    · have hpos : 0 < c.toNat := Nat.pos_of_ne_zero fun h => hc (BitVec.eq_of_toNat_eq h)
      right
      rw [duty_full hc]
      omega

end Sys2Proof.Proofs
end

section
/-! PROOFS. NOP (spec/43_control.md R200). -/

namespace Sys2Proof

/-- Encoding and decoding are inverses of each other, so that an instruction has one legal command (R80, R81). -/
theorem decode_eq_ok_iff_encode_eq {c : Command} {i : Instr} : decode c = .ok i ↔ encode i = c := by
  constructor
  · exact Proofs.encodeOfDecode c i
  · rintro rfl
    exact decode_encode i

theorem encode_nop : encode .nop = ⟨0, 0, 0, 0⟩ := by decide

theorem decode_eq_nop_iff (c : Command) : decode c = .ok .nop ↔ c = ⟨0, 0, 0, 0⟩ := by
  rw [decode_eq_ok_iff_encode_eq, encode_nop, eq_comm]

/-- With NOP's opcode there are no fields to check: a command is a NOP or has a reserved bit set (R82, R200). -/
theorem decode_of_nop_op {c : Command} (hop : c.op = Opcode.nop.code) :
    decode c = .ok .nop ∨ decode c = .error .reservedBits := by
  rw [decode_of_op hop]
  by_cases hbits : reservedBitsSet .nop c
  · exact .inr (if_pos hbits)
  · exact .inl (if_neg hbits)

end Sys2Proof

namespace Sys2Proof.Proofs

/-- Settles O15: `execNop` is the identity, and the zero command is the one legal encoding of NOP. -/
theorem nopDoesNothing : Obligations.NopDoesNothing := by
  refine ⟨fun st => rfl, decode_eq_nop_iff, fun c hop hc => ?_⟩
  rw [← op_toNat] at hop
  have hnop : decode c ≠ .ok .nop := mt (decode_eq_nop_iff c).1 hc
  exact (decode_of_nop_op (BitVec.eq_of_toNat_eq hop)).resolve_left hnop

end Sys2Proof.Proofs
end

section
/-! PROOFS. IllegalCommand (spec/60_exceptions.md R210 to R219): the error fields after a first and after a later
illegal command, and that no legal command but RST changes them. -/

namespace Sys2Proof.Machine

/-- R212 with ERR = 0: the error fields record the command. -/
theorem errors_raiseIllegal_first (k : Cause) (w : Word) (st : State) (h : st.status.err = false) :
    (raiseIllegal k w st).status.err = true ∧ (raiseIllegal k w st).status.merr = st.status.merr ∧
      (raiseIllegal k w st).status.cause = Cause.code k ∧ (raiseIllegal k w st).faultW0 = w := by
  rw [raiseIllegal_first h]
  exact ⟨rfl, rfl, rfl, rfl⟩

/-- R212 with ERR = 1: MERR is set, and the error recorded first stays. -/
theorem errors_raiseIllegal_again (k : Cause) (w : Word) (st : State) (h : st.status.err = true) :
    (raiseIllegal k w st).status.err = true ∧ (raiseIllegal k w st).status.merr = true ∧
      (raiseIllegal k w st).status.cause = st.status.cause ∧ (raiseIllegal k w st).faultW0 = st.faultW0 := by
  rw [raiseIllegal_again h]
  exact ⟨h, rfl, rfl, rfl⟩

/-- R201: RST clears the error fields. -/
theorem errors_resetState (P : Params) (st : State) :
    (resetState P st).status.err = false ∧ (resetState P st).status.merr = false ∧
      (resetState P st).status.cause = 0 ∧ (resetState P st).faultW0 = 0 := ⟨rfl, rfl, rfl, rfl⟩

end Sys2Proof.Machine

namespace Sys2Proof.Proofs

open Sys2Proof.Machine Sys2Proof.Safety

/-- Settles O11, by `step_of_port_nil`. -/
theorem idleStepHoldsState : Obligations.IdleStepHoldsState := fun _ => step_of_port_nil

/-- Settles O10: the step is `raiseIllegal`, whose error fields depend on ERR and whose frame does not. -/
theorem stepRecordsIllegalCommand : Obligations.StepRecordsIllegalCommand := by
  intro s c rest k hport hdec
  refine ⟨_, step_of_decode_error hport hdec, fun herr => ?_,
    errors_raiseIllegal_again k c.w0 { s with port := rest }, strips_raiseIllegal ..,
    settled_raiseIllegal _ _ _ .s0, settled_raiseIllegal _ _ _ .s1, result_raiseIllegal .., writes_raiseIllegal ..,
    port_raiseIllegal ..⟩
  obtain ⟨herr', hmerr, hcause, hfault⟩ := errors_raiseIllegal_first k c.w0 { s with port := rest } herr
  refine ⟨herr', hmerr, ?_, hfault⟩
  rw [hcause]
  cases k <;> rfl

/-- Settles O53: RST by its reset values, every other instruction by the rule that it keeps the error fields. -/
theorem legalCommandsNeverErr : Obligations.LegalCommandsNeverErr := by
  intro i st
  refine ⟨effect i st, exec_eq_effect i st, ?_⟩
  split
  case isTrue hrst =>
    subst hrst
    exact errors_resetState Config.block st
  case isFalse hrst => exact keepsErrors_effect st hrst

/-- Settles O52: an idle step changes nothing, a legal command other than RST keeps the error fields, and an illegal
one only sets MERR. -/
theorem errorsStickUntilReset : Obligations.ErrorsStickUntilReset := by
  intro st t hstep herr hnorst
  obtain ⟨hport, rfl⟩ | ⟨c, rest, i, hport, hdec, hexec⟩ | ⟨c, rest, k, hport, hdec, rfl⟩ := step_cases hstep
  · refine ⟨herr, rfl, rfl, id, fun c rest hcons => ?_⟩
    exact absurd (hcons.symm.trans hport) (List.cons_ne_nil c rest)
  · obtain rfl := eq_effect_of_exec hexec
    have hi : i ≠ .rst := fun h => hnorst c rest hport (h ▸ hdec)
    obtain ⟨herr', hmerr, hcause, hfault⟩ := keepsErrors_effect { st with port := rest } hi
    refine ⟨herr'.trans herr, hcause, hfault, hmerr.trans, fun c' rest' hcons => ?_⟩
    obtain ⟨rfl, -⟩ := List.cons.inj (hport.symm.trans hcons)
    rw [hdec]
    exact hmerr
  · obtain ⟨herr', hmerr, hcause, hfault⟩ := errors_raiseIllegal_again k c.w0 { st with port := rest } herr
    refine ⟨herr', hcause, hfault, fun _ => hmerr, fun c' rest' hcons => ?_⟩
    obtain ⟨rfl, -⟩ := List.cons.inj (hport.symm.trans hcons)
    rw [hdec]
    exact hmerr

end Sys2Proof.Proofs
end

section
/-! PROOFS. The first UPD after a reset (spec/70_reset_and_hazards.md R241): which channels of the reset state count as
changed, and what UPD writes of a strip that is still as the reset left it. -/

namespace Sys2Proof.Machine

open Safety

/-- R183 at the reset values: the pair (0, 0) is the shadow's, so that only a shadow without a pair makes it changed. -/
theorem Channel.changed_reset (P : Params) : (Channel.reset P).changed = true ↔ P.shadowInit = .invalid := by
  cases h : P.shadowInit <;> simp [Channel.changed_iff, Channel.reset, Fader.reset, h]

/-- R241: with an invalid shadow UPD writes a channel as reset left it with duty 0, and so ON = OFF = PHASE. -/
theorem updEvents_reset_invalid {P : Params} (h : P.shadowInit = .invalid) (s : StripId) (ch : Chan) :
    updEvents P s ch (Channel.reset P) = channelEvents P s ch 0 := by
  rw [updEvents_eq, if_pos ((Channel.changed_reset P).2 h)]
  exact congrArg (channelEvents P s ch) (duty_of_eq_zero (.inl rfl))

section
variable {P : Params} {s : StripId} {st : State} (hst : ∀ ch, st.channel s ch = Channel.reset P)
include hst

theorem writes_updStrip_of_reset_invalid (h : P.shadowInit = .invalid) :
    (updStrip P s st).writes = st.writes ++ allChans.flatMap (channelEvents P s · 0) := by
  simp only [writes_updStrip, hst, updEvents_reset_invalid h]

/-- R241: with a zero shadow every current pair equals it, and UPD finds nothing to do. -/
theorem updStrip_of_reset_zero (h : P.shadowInit = .zero) : updStrip P s st = st := by
  have hchanged : (Channel.reset P).changed = false := by
    rw [← Bool.not_eq_true, Channel.changed_reset, h]
    exact nofun
  exact updStrip_of_not_changed P fun ch => by rw [hst, hchanged]

end

/-- UPD of one strip leaves the other as the reset left it. -/
theorem channel_updStrip_resetState_ne (P : Params) {s s' : StripId} (hs : s' ≠ s) (st : State) (ch : Chan) :
    (updStrip P s (resetState P st)).channel s' ch = Channel.reset P := by
  rw [channel_updStrip, if_neg hs, channel_resetState]

end Sys2Proof.Machine

namespace Sys2Proof.Proofs

open Sys2Proof.Machine

/-- Settles O48: each strip is still as the reset left it when its first UPD comes. -/
theorem firstUpdAfterReset : Obligations.FirstUpdAfterReset := by
  intro P s s' st hne
  have hreset : ∀ s ch, (resetState P st).channel s ch = Channel.reset P := channel_resetState P st
  refine ⟨rfl, fun hinv => ?_, fun hzero => ?_⟩
  · have hfirst := writes_updStrip_of_reset_invalid (hreset s) hinv
    have hsecond := writes_updStrip_of_reset_invalid (channel_updStrip_resetState_ne P hne st) hinv
    exact ⟨hfirst, hsecond.trans (by rw [hfirst]; rfl)⟩
  · rw [updStrip_of_reset_zero (hreset s) hzero, updStrip_of_reset_zero (hreset s') hzero, writes_resetState]

end Sys2Proof.Proofs
end

section
/-! PROOFS. The binary64 alternative of the curve unit (spec/40_curve.md R114): each rounded operation of the linear
curve at 29/100 of the way from 0 to 100, against the exact value 29. -/

namespace Sys2Proof.Machine

/-- The clamp of R101 leaves a percent in [0, 1) as it is. -/
theorem clampPercent_of_mem_Ico {p : Frac} (hp : p.toRat ∈ Set.Ico 0 1) : clampPercent p = p := by
  obtain ⟨h0, h1⟩ := hp
  have hneg : ¬ p.lt (Frac.ofInt 0) = true := by rwa [Frac.lt_iff, Frac.toRat_ofInt, Int.cast_zero, not_lt]
  have hlt : p.lt (Frac.ofInt 1) = true := by rwa [Frac.lt_iff, Frac.toRat_ofInt, Int.cast_one]
  rw [clampPercent, Frac.greatest, if_neg hneg, Frac.least, if_pos hlt]

/-- R102, R107: the linear curve is the clamped percent, a rounded product, a rounded sum and ToInt. -/
theorem curve_linear (P : Params) (p : Frac) (a b : ℕ) :
    curve P .linear p a b = (toInt P.curveToInt (roundArith P.curveArith (Frac.add (Frac.ofInt a)
      (roundArith P.curveArith (Frac.mul (Frac.ofInt ((b : ℤ) - a)) (clampPercent p)))))).toNat := rfl

/-- 29/100 in binary64, a little below 29/100. -/
def binary64Percent29 : Frac := Frac.ratio 5224175567749775 (2 ^ 54) (Nat.two_pow_pos 54)

/-- The binary64 number before 29, one unit in the last place (2 ^ -48) below it. -/
def binary64Below29 : Frac := Frac.ratio (29 * 2 ^ 48 - 1) (2 ^ 48) (Nat.two_pow_pos 48)

theorem elapsedRatio_binary64_29_100 : elapsedRatio .binary64 29 100 = binary64Percent29 := rfl

theorem toRat_binary64Percent29_mem_Ico : binary64Percent29.toRat ∈ Set.Ico 0 1 := by
  rw [binary64Percent29, Frac.toRat_ratio]
  norm_num

/-- The product of 100 and the rounded percent does not round up to 29. -/
theorem toBinary64_hundred_mul_percent29 :
    (Frac.mul (Frac.ofInt 100) binary64Percent29).toBinary64 = binary64Below29 := rfl

theorem toBinary64_zero_add_below29 : (Frac.add (Frac.ofInt 0) binary64Below29).toBinary64 = binary64Below29 := rfl

theorem floor_binary64Below29 : binary64Below29.floor = 28 := by decide

/-- R107: in exact arithmetic the value is 29, an integer, which the floor keeps. -/
theorem curve_exact_29_100 : curve Config.block .linear (elapsedRatio .exact 29 100) 0 100 = 29 := by
  have hratio : (elapsedRatio .exact 29 100).toRat = 29 / 100 := toRat_elapsedRatio_exact 29 100
  rw [curve_block_eq_iff, hratio, curveQ_eq_floor, Safety.weightQ]
  norm_num

/-- R114: in binary64 the value stays below 29, so that the floor is 28. -/
theorem curve_binary64_29_100 {P : Params} (harith : P.curveArith = .binary64) (hint : P.curveToInt = .floor) :
    curve P .linear (elapsedRatio .binary64 29 100) 0 100 = 28 := by
  rw [elapsedRatio_binary64_29_100, curve_linear, clampPercent_of_mem_Ico toRat_binary64Percent29_mem_Ico, harith, hint]
  have hproduct : roundArith .binary64 (Frac.mul (Frac.ofInt ((100 : ℕ) - (0 : ℕ))) binary64Percent29) =
      binary64Below29 := toBinary64_hundred_mul_percent29
  have hsum : roundArith .binary64 (Frac.add (Frac.ofInt (0 : ℕ)) binary64Below29) = binary64Below29 :=
    toBinary64_zero_add_below29
  rw [hproduct, hsum, toInt, floor_binary64Below29]
  rfl

end Sys2Proof.Machine

namespace Sys2Proof.Proofs

open Sys2Proof.Machine

/-- Settles O25: the binary64 product of 100 and the percent is the number before 29, and the floor gives 28. -/
theorem binary64DiffersByOneUnit : Obligations.Binary64DiffersByOneUnit :=
  ⟨curve_exact_29_100, curve_binary64_29_100 rfl rfl⟩

end Sys2Proof.Proofs
end
